-- ==== Sys2Proof/Word.lean ====
section
/-! DEFINITION. The words of the GF2P8-RS core: bytes, the 9-bit configuration registers, the 16-bit numeric fields
of a frame, and frames themselves (00_scope.md R5, 10_state.md R17, 30_encoding.md R45 and R48). -/

namespace Sys2Proof

/-- A byte, which is also a field element (R5): bit 7 is the coefficient of x^7. -/
abbrev Byte := BitVec 8

/-- A multi-byte numeric field of a frame: 16 bits, unsigned (R48). -/
abbrev Half := BitVec 16

/-- A 9-bit configuration register: CFG_N, CFG_K, GEN_LEN (R17, R18, R20). -/
abbrev Reg9 := BitVec 9

/-- A command or response frame: a finite byte string, byte 0 first (R45). -/
abbrev Frame := List Byte

end Sys2Proof
end

