-- ==== Sys2Proof/Machine/Operands.lean ====
section
/-! DEFINITION. Operand forms of a frame: one-byte fields stand as they are; two-byte fields are big-endian
(20_memory.md R31, 30_encoding.md R48). -/

namespace Sys2Proof.Machine

/-- The 16-bit field whose most significant byte is `hi` and whose least significant byte is `lo`: 256·hi + lo
(R48). -/
def be16 (hi lo : Byte) : Half := hi ++ lo

/-- The first (most significant) byte of a 16-bit field. -/
def hi8 (v : Half) : Byte := v.extractLsb' 8 8

/-- The second (least significant) byte of a 16-bit field. -/
def lo8 (v : Half) : Byte := v.extractLsb' 0 8

/-- A 16-bit field as it stands in a frame: most significant byte first (R31). -/
def be16Bytes (v : Half) : Frame := [hi8 v, lo8 v]

/-- The length field of a sequence (R47, R54): its number of elements, in 16 bits (log 13 says what
becomes of a longer list). -/
def lengthField (s : List Byte) : Half := BitVec.ofNat 16 s.length

end Sys2Proof.Machine
end

