-- ==== Sys2Proof/Config.lean ====
section
/-! DEFINITION. What is fixed for this core and is not state: the parameters of 00_scope.md R4, and the free values
for the two table words the spec leaves undefined (93_implementation_defined.md U1, U2). -/

namespace Sys2Proof

/-- FIELD_ORDER (R4): the number of field elements. -/
def Config.fieldOrder : Nat := 256

/-- FIELD_POLY (R4): x^8 + x^4 + x^3 + x + 1. -/
def Config.fieldPoly : BitVec 9 := 0x11B#9

/-- TABLE_GEN (R4, D3): the element whose powers fill ALOG. -/
def Config.tableGen : Byte := 0x03#8

/-- ALOG_LEN (R4): two copies of the 255-cycle. -/
def Config.alogLen : Nat := 510

/-- The length of the multiplicative cycle, FIELD_ORDER - 1. -/
def Config.cycleLen : Nat := 255

/-- MAX_LEN (R4): the longest sequence a frame can carry. -/
def Config.maxLen : Nat := 65535

/-- N_MAX (R4): the largest accepted n. -/
def Config.nMax : Nat := 256

/-- The number of bytes of the buffer GEN (R20). -/
def Config.genSize : Nat := 256

/-- FREE VALUE (log 6): what the ROM cell LOG[0] holds. Unspecified, never read, never returned (R13, U1). -/
opaque Config.logZero : Byte

/-- FREE VALUE (log 6): what the ROM cell INV[0] holds. Unspecified, never read, never returned (R15, U2). -/
opaque Config.invZero : Byte

/-- FREE VALUE (log 7): a read of a ROM at an index it does not have. No rule makes such a read (R35). -/
opaque Config.noSuchEntry : Nat → Byte

end Sys2Proof
end

