-- ==== Sys2Proof/Syntax.lean ====
section
/-! DEFINITION. The command set: one constructor per row of spec/opcode_table.json, with the operands of its frame
format (30_encoding.md R47, R50). -/

namespace Sys2Proof

/-- The twenty-one commands of the GF2P8-RS core (R50), each with the operands its frame carries (R46). A sequence
operand is the list of its bytes, first byte first; its length field is the list's length. -/
inductive Instr where
  /-- GF.ZERO, format Z (R91). -/
  | gfZero
  /-- GF.ONE, format Z (R92). -/
  | gfOne
  /-- GF.ADD a, b, format AB (R93). -/
  | gfAdd (a b : Byte)
  /-- GF.SUB a, b, format AB (R94). -/
  | gfSub (a b : Byte)
  /-- GF.MUL a, b, format AB (R95). -/
  | gfMul (a b : Byte)
  /-- GF.DIV a, b, format AB (R96). -/
  | gfDiv (a b : Byte)
  /-- GF.INV a, format A (R97). -/
  | gfInv (a : Byte)
  /-- GF.EXP a, power, format AP (R98). -/
  | gfExp (a : Byte) (power : Half)
  /-- GF.NEG a, format A (R99). -/
  | gfNeg (a : Byte)
  /-- GF.EQ a, b, format AB (R100). -/
  | gfEq (a b : Byte)
  /-- GF.FROMB v, format A (R101). -/
  | gfFromb (v : Byte)
  /-- TBL.LOG a, format A (R76). -/
  | tblLog (a : Byte)
  /-- TBL.ALOG idx, format I (R77). -/
  | tblAlog (idx : Half)
  /-- TBL.INV a, format A (R78). -/
  | tblInv (a : Byte)
  /-- POLY.EVAL x, [c...], format PE (R118). -/
  | polyEval (x : Byte) (c : List Byte)
  /-- POLY.MUL [a...], [b...], format PM (R119). -/
  | polyMul (a b : List Byte)
  /-- RS.CONFIG n, k, g, format RC (R131). -/
  | rsConfig (n k : Half) (g : Byte)
  /-- RS.ENCODE [m...], format RM (R136). -/
  | rsEncode (m : List Byte)
  /-- RS.CHECK [m...], format RM (R137). -/
  | rsCheck (m : List Byte)
  /-- RS.GENRD, format Z (R138). -/
  | rsGenrd
  /-- RS.STAT, format Z (R141). -/
  | rsStat
  deriving DecidableEq, Repr

end Sys2Proof
end

