-- ==== Sys2Proof/WellFormed.lean ====
section
/-! DEFINITION. Which terms of `Instr` a frame can carry: every sequence operand fits its 16-bit length field
(00_scope.md R4 MAX_LEN; 30_encoding.md R47). -/

namespace Sys2Proof

/-- A sequence that a 16-bit length field can announce (R4: LEN_W, MAX_LEN). -/
def fitsLength (s : List Byte) : Bool := decide (s.length ≤ Config.maxLen)

/-- The well-formed instructions: those some frame spells (R47, R49). -/
def Instr.wf : Instr → Bool
  | .gfZero | .gfOne | .gfAdd _ _ | .gfSub _ _ | .gfMul _ _ | .gfDiv _ _ | .gfInv _ | .gfExp _ _
  | .gfNeg _ | .gfEq _ _ | .gfFromb _ | .tblLog _ | .tblAlog _ | .tblInv _ => true
  | .polyEval _ c => fitsLength c
  | .polyMul a b => fitsLength a && fitsLength b
  | .rsConfig _ _ _ => true
  | .rsEncode m => fitsLength m
  | .rsCheck m => fitsLength m
  | .rsGenrd | .rsStat => true

end Sys2Proof
end

