-- ==== Sys2Proof/Decode.lean ====
section
/-! DEFINITION. The opcode map, the decoder (total on byte strings, rejecting by name) and the encoder
(30_encoding.md R46 to R50, R57, R58, R60). Decoding reads no state (R58). -/

namespace Sys2Proof

open Machine (be16 be16Bytes lengthField)

/-- The nine command formats (R47). -/
inductive Format where
  | z | a | ab | ap | i | pe | pm | rc | rm
  deriving DecidableEq, Repr

/-- The twenty-one assigned opcodes (R50), by command. -/
inductive Opcode where
  | gfZero | gfOne | gfAdd | gfSub | gfMul | gfDiv | gfInv | gfExp | gfNeg | gfEq | gfFromb
  | tblLog | tblAlog | tblInv
  | polyEval | polyMul
  | rsConfig | rsEncode | rsCheck | rsGenrd | rsStat
  deriving DecidableEq, Repr

/-- Why a frame spells no command. All three are answered ILLEGAL_COMMAND (R57). -/
inductive DecodeError where
  /-- The frame has no opcode byte. -/
  | emptyFrame
  /-- Byte 0 is not an opcode of R50. -/
  | unknownOpcode
  /-- The opcode is assigned, but the frame's length is not the required length of R49. -/
  | wrongLength
  deriving DecidableEq, Repr

/-- Every opcode of R50, in the table's order. -/
def Opcode.all : List Opcode :=
  [.gfZero, .gfOne, .gfAdd, .gfSub, .gfMul, .gfDiv, .gfInv, .gfExp, .gfNeg, .gfEq, .gfFromb,
   .tblLog, .tblAlog, .tblInv, .polyEval, .polyMul, .rsConfig, .rsEncode, .rsCheck, .rsGenrd, .rsStat]

/-- The opcode byte (R50, column "opcode"). -/
def Opcode.byte : Opcode → Byte
  | .gfZero => 0x00#8
  | .gfOne => 0x01#8
  | .gfAdd => 0x02#8
  | .gfSub => 0x03#8
  | .gfMul => 0x04#8
  | .gfDiv => 0x05#8
  | .gfInv => 0x06#8
  | .gfExp => 0x07#8
  | .gfNeg => 0x08#8
  | .gfEq => 0x09#8
  | .gfFromb => 0x0A#8
  | .tblLog => 0x10#8
  | .tblAlog => 0x11#8
  | .tblInv => 0x12#8
  | .polyEval => 0x20#8
  | .polyMul => 0x21#8
  | .rsConfig => 0x30#8
  | .rsEncode => 0x31#8
  | .rsCheck => 0x32#8
  | .rsGenrd => 0x33#8
  | .rsStat => 0x34#8

/-- The frame format (R50, column "format"). -/
def Opcode.format : Opcode → Format
  | .gfZero => .z
  | .gfOne => .z
  | .gfAdd => .ab
  | .gfSub => .ab
  | .gfMul => .ab
  | .gfDiv => .ab
  | .gfInv => .a
  | .gfExp => .ap
  | .gfNeg => .a
  | .gfEq => .ab
  | .gfFromb => .a
  | .tblLog => .a
  | .tblAlog => .i
  | .tblInv => .a
  | .polyEval => .pe
  | .polyMul => .pm
  | .rsConfig => .rc
  | .rsEncode => .rm
  | .rsCheck => .rm
  | .rsGenrd => .z
  | .rsStat => .z

/-- The command an opcode byte selects: match on the whole of byte 0, mask 0xFF (R50). -/
def opcodeOf (b : Byte) : Option Opcode := Opcode.all.find? (fun o => o.byte == b)

/-- The required length of a frame by its format and the bytes after its opcode (R49). `none`: too short to hold its
length fields. -/
def formatLength : Format → Frame → Option Nat
  | .z, _ => some 1
  | .a, _ => some 2
  | .ab, _ => some 3
  | .ap, _ => some 4
  | .i, _ => some 3
  | .rc, _ => some 6
  | .pe, _ :: hi :: lo :: _ => some (4 + (be16 hi lo).toNat)
  | .pe, _ => none
  | .pm, ah :: al :: bh :: bl :: _ => some (5 + (be16 ah al).toNat + (be16 bh bl).toNat)
  | .pm, _ => none
  | .rm, hi :: lo :: _ => some (3 + (be16 hi lo).toNat)
  | .rm, _ => none

/-- The required length of a frame, where it has one: a function of its opcode and, for formats PE, PM and RM, of its
length fields (R49). -/
def requiredLength : Frame → Option Nat
  | [] => none
  | op :: rest =>
    match opcodeOf op with
    | none => none
    | some o => formatLength o.format rest

/-- Format Z: no operand. -/
def operandsZ (i : Instr) : Frame → Option Instr
  | [] => some i
  | _ => none

/-- Format A: one byte. -/
def operandsA (i : Byte → Instr) : Frame → Option Instr
  | [a] => some (i a)
  | _ => none

/-- Format AB: two bytes. -/
def operandsAB (i : Byte → Byte → Instr) : Frame → Option Instr
  | [a, b] => some (i a b)
  | _ => none

/-- Format AP: a byte and a 16-bit exponent. -/
def operandsAP (i : Byte → Half → Instr) : Frame → Option Instr
  | [a, ph, pl] => some (i a (be16 ph pl))
  | _ => none

/-- Format I: a 16-bit table index. -/
def operandsI (i : Half → Instr) : Frame → Option Instr
  | [h, l] => some (i (be16 h l))
  | _ => none

/-- Format RC: n and k of 16 bits each, and the byte g. -/
def operandsRC (i : Half → Half → Byte → Instr) : Frame → Option Instr
  | [nh, nl, kh, kl, g] => some (i (be16 nh nl) (be16 kh kl) g)
  | _ => none

/-- Format PE: the point, the length, exactly that many coefficients. -/
def operandsPE (i : Byte → List Byte → Instr) : Frame → Option Instr
  | x :: hi :: lo :: c => if c.length = (be16 hi lo).toNat then some (i x c) else none
  | _ => none

/-- Format PM: two lengths, then exactly that many coefficients of each sequence. -/
def operandsPM (i : List Byte → List Byte → Instr) : Frame → Option Instr
  | ah :: al :: bh :: bl :: rest =>
    if rest.length = (be16 ah al).toNat + (be16 bh bl).toNat then
      some (i (rest.take (be16 ah al).toNat) (rest.drop (be16 ah al).toNat))
    else none
  | _ => none

/-- Format RM: the length, exactly that many message bytes. -/
def operandsRM (i : List Byte → Instr) : Frame → Option Instr
  | hi :: lo :: m => if m.length = (be16 hi lo).toNat then some (i m) else none
  | _ => none

/-- The operands of a command, read from the bytes after the opcode; `none` where their number is wrong (R58). -/
def operandsOf : Opcode → Frame → Option Instr
  | .gfZero => operandsZ .gfZero
  | .gfOne => operandsZ .gfOne
  | .gfAdd => operandsAB .gfAdd
  | .gfSub => operandsAB .gfSub
  | .gfMul => operandsAB .gfMul
  | .gfDiv => operandsAB .gfDiv
  | .gfInv => operandsA .gfInv
  | .gfExp => operandsAP .gfExp
  | .gfNeg => operandsA .gfNeg
  | .gfEq => operandsAB .gfEq
  | .gfFromb => operandsA .gfFromb
  | .tblLog => operandsA .tblLog
  | .tblAlog => operandsI .tblAlog
  | .tblInv => operandsA .tblInv
  | .polyEval => operandsPE .polyEval
  | .polyMul => operandsPM .polyMul
  | .rsConfig => operandsRC .rsConfig
  | .rsEncode => operandsRM .rsEncode
  | .rsCheck => operandsRM .rsCheck
  | .rsGenrd => operandsZ .rsGenrd
  | .rsStat => operandsZ .rsStat

/-- Decode, a total function on byte strings (R58). -/
def decode : Frame → Except DecodeError Instr
  | [] => .error .emptyFrame
  | op :: rest =>
    match opcodeOf op with
    | none => .error .unknownOpcode
    | some o =>
      match operandsOf o rest with
      | none => .error .wrongLength
      | some i => .ok i

/-- The opcode of a command (R50). -/
def Instr.opcode : Instr → Opcode
  | .gfZero => .gfZero
  | .gfOne => .gfOne
  | .gfAdd _ _ => .gfAdd
  | .gfSub _ _ => .gfSub
  | .gfMul _ _ => .gfMul
  | .gfDiv _ _ => .gfDiv
  | .gfInv _ => .gfInv
  | .gfExp _ _ => .gfExp
  | .gfNeg _ => .gfNeg
  | .gfEq _ _ => .gfEq
  | .gfFromb _ => .gfFromb
  | .tblLog _ => .tblLog
  | .tblAlog _ => .tblAlog
  | .tblInv _ => .tblInv
  | .polyEval _ _ => .polyEval
  | .polyMul _ _ => .polyMul
  | .rsConfig _ _ _ => .rsConfig
  | .rsEncode _ => .rsEncode
  | .rsCheck _ => .rsCheck
  | .rsGenrd => .rsGenrd
  | .rsStat => .rsStat

/-- The operand bytes of a command's frame, in the layout of its format (R47, R60). -/
def Instr.operandBytes : Instr → Frame
  | .gfZero | .gfOne | .rsGenrd | .rsStat => []
  | .gfAdd a b | .gfSub a b | .gfMul a b | .gfDiv a b | .gfEq a b => [a, b]
  | .gfInv a | .gfNeg a | .gfFromb a | .tblLog a | .tblInv a => [a]
  | .gfExp a power => a :: be16Bytes power
  | .tblAlog idx => be16Bytes idx
  | .polyEval x c => x :: (be16Bytes (lengthField c) ++ c)
  | .polyMul a b => be16Bytes (lengthField a) ++ (be16Bytes (lengthField b) ++ (a ++ b))
  | .rsConfig n k g => be16Bytes n ++ (be16Bytes k ++ [g])
  | .rsEncode m | .rsCheck m => be16Bytes (lengthField m) ++ m

/-- Assembly of a command to its frame, the inverse of decode on well-formed instructions (R60). -/
def encode (i : Instr) : Frame := i.opcode.byte :: i.operandBytes

/-- Byte `n` of a word numbered as spec/opcode_table.json numbers it: byte 0 is bits 7..0. -/
def byteOfWord (w n : Nat) : Byte := BitVec.ofNat 8 (w >>> (8 * n))

/-- The frame that an instruction word stands for (log 12): its `nbits` bits in whole bytes, byte 0 first, and after
them as many zero bytes as the required length of R49 asks for. The five bytes read first hold every length field. -/
def frameOfWord (nbits w : Nat) : Frame :=
  let bits := w % 2 ^ nbits
  let header := (List.range 5).map (byteOfWord bits)
  let n := max ((nbits + 7) / 8) ((requiredLength header).getD 0)
  (List.range n).map (byteOfWord bits)

/-- The instruction the decoder reads from the frame of a table word. -/
def decodeTableWord (nbits w : Nat) : Option Instr :=
  match decode (frameOfWord nbits w) with
  | .ok i => some i
  | .error _ => none

end Sys2Proof
end

