-- ==== Sys2Proof/Machine/FieldOps.lean ====
section
/-! DEFINITION. The field functions gf_add, gf_sub, gf_mul, gf_div, gf_inv, gf_exp, gf_neg and gf_eq
(41_field_ops.md R93 to R100), and the field and its tables stated without the listings (40_field_tables.md R71,
41_field_ops.md R103). -/

namespace Sys2Proof.Machine

/-- gf_add (R93). -/
def gfAdd (a b : Byte) : Byte := a ^^^ b

/-- gf_sub (R94): the same map as gf_add. -/
def gfSub (a b : Byte) : Byte := a ^^^ b

/-- gf_mul (R95). The zero test comes first, so LOG[0] is never read; the sum is a sum of natural numbers. -/
def gfMul (a b : Byte) : Byte :=
  if a = 0x00#8 ∨ b = 0x00#8 then 0x00#8 else alogAt ((logAt a).toNat + (logAt b).toNat)

/-- gf_inv (R97); `none` is the document's "absent". -/
def gfInv (a : Byte) : Option Byte := if a = 0x00#8 then none else some (invAt a)

/-- gf_div (R96); the test b = 0 comes first. -/
def gfDiv (a b : Byte) : Option Byte :=
  if b = 0x00#8 then none
  else if a = 0x00#8 then some 0x00#8
  else (gfInv b).map (gfMul a)

/-- gf_exp (R98), for every natural exponent; the test p = 0 comes first, and the product is exact (D24). -/
def gfExp (a : Byte) (p : Nat) : Byte :=
  if p = 0 then 0x01#8
  else if a = 0x00#8 then 0x00#8
  else alogAt ((logAt a).toNat * p % Config.cycleLen)

/-- gf_neg (R99). -/
def gfNeg (a : Byte) : Byte := a

/-- gf_eq (R100): equality of bytes. -/
def gfEq (a b : Byte) : Bool := a == b

/-- xtime (R71): double, and reduce by FIELD_POLY on overflow of 8 bits. -/
def xtime (v : Byte) : Byte :=
  let w : BitVec 9 := v.setWidth 9 <<< 1
  (if 256 ≤ w.toNat then w ^^^ Config.fieldPoly else w).setWidth 8

/-- step (R71): v times 0x03, one xtime and the undoubled value added. -/
def tableStep (v : Byte) : Byte := xtime v ^^^ v

/-- The values v, step v, step (step v), ... of the loop of R71: `n` of them. -/
def tableCycle : Nat → Byte → List Byte
  | 0, _ => []
  | n + 1, v => v :: tableCycle n (tableStep v)

/-- One round of the loop of R103: double, and add `a` where the bit of `b` is set. -/
def clmulRound (a b : Byte) (r : Byte) (bit : Nat) : Byte :=
  if b.getLsbD bit then xtime r ^^^ a else xtime r

/-- clmul_mod (R103): the product in GF(2)[x]/(FIELD_POLY), for bit = 7 down to 0. -/
def clmulMod (a b : Byte) : Byte := [7, 6, 5, 4, 3, 2, 1, 0].foldl (clmulRound a b) 0x00#8

/-- The p-fold product of `a` under R103 (R98, R72: T^0 = 0x01). -/
def clmulPow (a : Byte) : Nat → Byte
  | 0 => 0x01#8
  | p + 1 => clmulMod (clmulPow a p) a

end Sys2Proof.Machine
end

