-- ==== Sys2Proof/Machine/Flags.lean ====
section
/-! DEFINITION. What the core has instead of flags: the status byte of each response, and the response formats
(10_state.md R12: no flag or condition code is kept; 30_encoding.md R51 to R56; 60_exceptions.md R150). -/

namespace Sys2Proof.Machine

/-- The nine status codes (R150). -/
inductive Status where
  | ok | absent | tooFewNumbers | tooFewParity | tooManyNumbers | invalidMessage | notConfigured
  | illegalCommand | range
  deriving DecidableEq, Repr

/-- The number of each status code (R150, column "code"). -/
def Status.code : Status → Byte
  | .ok => 0x00#8
  | .absent => 0x01#8
  | .tooFewNumbers => 0x02#8
  | .tooFewParity => 0x03#8
  | .tooManyNumbers => 0x04#8
  | .invalidMessage => 0x05#8
  | .notConfigured => 0x06#8
  | .illegalCommand => 0x07#8
  | .range => 0x08#8

/-- What a response carries, by format. -/
inductive Response where
  /-- The status byte alone: format E for a status other than OK (R52), and RS.CONFIG's OK (R56). -/
  | status (st : Status)
  /-- Format V: one value (R53). -/
  | value (v : Byte)
  /-- Format Q: one sequence (R54). -/
  | sequence (q : List Byte)
  /-- Format ST: the configuration (R55). -/
  | config (valid : Bool) (n k : Half) (g : Byte)
  deriving DecidableEq, Repr

/-- A boolean in a response: 0x01 for true, 0x00 for false (R53). -/
def boolByte (b : Bool) : Byte := if b then 0x01#8 else 0x00#8

/-- The response frame, byte for byte (R51 to R56). -/
def Response.bytes : Response → Frame
  | .status st => [st.code]
  | .value v => [Status.ok.code, v]
  | .sequence q => Status.ok.code :: (be16Bytes (lengthField q) ++ q)
  | .config valid n k g => Status.ok.code :: boolByte valid :: (be16Bytes n ++ (be16Bytes k ++ [g]))

end Sys2Proof.Machine
end

