-- ==== Sys2Proof/Machine/State.lean ====
section
/-! DEFINITION. The machine's state (10_state.md R16 to R20, R24, R25), the two ports through which the host reaches
it (30_encoding.md R45, 70_reset_and_hazards.md R170, R178), and the reasons a step can stop. The three read-only
memories are constants of the configuration layer, not fields (R25): Machine/Tables.lean. -/

namespace Sys2Proof.Machine

/-- A byte memory: the cells that do not hold what an unlisted address reads as, addresses strictly rising
(`Memory.wf` in Machine/Ops.lean). The one writable memory of the core is GEN (R30). -/
abbrev Memory := List Host.Cell

/-- The configuration registers (R16 to R20): all the writable state of the core (R23). -/
structure Regs where
  /-- CFG_VALID, 1 bit (R16). -/
  cfgValid : Bool
  /-- CFG_N, 9 bits (R17). -/
  cfgN : Reg9
  /-- CFG_K, 9 bits (R18). -/
  cfgK : Reg9
  /-- CFG_G, 8 bits (R19). -/
  cfgG : Byte
  /-- GEN_LEN, 9 bits (R20). -/
  genLen : Reg9
  /-- GEN, the 256-byte buffer (R20; log 5). -/
  gen : Memory
  deriving DecidableEq, Repr

/-- What the host does at the core's inputs (R178). -/
inductive HostInput where
  /-- The host sends a command frame; any byte string may be sent (R45). -/
  | command (frame : Frame)
  /-- The host asserts reset with no command outstanding (R170). -/
  | reset
  /-- The host sends a command frame and asserts reset before its response (R171). -/
  | commandCutByReset (frame : Frame)
  deriving DecidableEq, Repr

/-- The machine: the registers, and the model's own picture of the two ports (log 1). -/
structure State where
  /-- The configuration registers. -/
  regs : Regs
  /-- What the host does from here on, first thing first: the command port and the reset input (R45, R170). -/
  inputs : List HostInput
  /-- The response frames sent so far, in the order sent: the response port (R45, R176). -/
  responses : List Frame
  deriving DecidableEq, Repr

/-- Why the machine stops with a fault. -/
inductive Fault where
  /-- Raised by RS.ENCODE, RS.CHECK and RS.GENRD where GEN_LEN exceeds 256, so that the read of GEN would go to an index
  that does not exist (R30). No reachable state has such a GEN_LEN (R21; log 10). Safe. -/
  | genIndex
  deriving DecidableEq, Repr

/-- Why the model gives no meaning. -/
inductive Refusal where
  /-- An instruction that has no meaning yet; raised by `exec` only. Safe. -/
  | notModelled (mnemonic : String)
  /-- Raised by RS.ENCODE and RS.CHECK where GEN denotes the zero polynomial: division by it is not defined
  (93_implementation_defined.md U5, "refuse"). No reachable state has such a GEN (R21; log 10). Safe. -/
  | zeroDivisor
  deriving DecidableEq, Repr

/-- The registers after reset (R24). GEN[0..255] hold 0x00 each: no cell is listed. -/
def Regs.reset : Regs :=
  { cfgValid := false, cfgN := 0#9, cfgK := 0#9, cfgG := 0x00#8, genLen := 0#9, gen := [] }

/-- The machine right after reset (R24): no frame has been sent to it and none has been answered. -/
def State.reset : State := { regs := Regs.reset, inputs := [], responses := [] }

end Sys2Proof.Machine
end

