-- ==== Sys2Proof/Machine/Ops.lean ====
section
/-! DEFINITION. The shared operations: reading and writing the byte memory GEN (20_memory.md R30, R33), answering a
command (30_encoding.md R51), ending a command with a status (60_exceptions.md R152; the core has no trap, R159), and
the reset input (70_reset_and_hazards.md R170). -/

namespace Sys2Proof.Machine

/-- What an unlisted cell of GEN reads as: its reset value 0x00 (R24). -/
def Memory.unlisted : Byte := 0x00#8

/-- MemRead(GEN, i, 1) (R6, R33). -/
def Memory.read : Memory → Nat → Byte
  | [], _ => Memory.unlisted
  | (b, w) :: rest, a => if a = b then w else Memory.read rest a

/-- MemWrite(GEN, i, 1, v) (R6, R33), keeping the canonical form. -/
def Memory.write : Memory → Nat → Byte → Memory
  | [], a, v => if v = Memory.unlisted then [] else [(a, v)]
  | (b, w) :: rest, a, v =>
    if a < b then (if v = Memory.unlisted then (b, w) :: rest else (a, v) :: (b, w) :: rest)
    else if a = b then (if v = Memory.unlisted then rest else (a, v) :: rest)
    else (b, w) :: Memory.write rest a v

/-- The canonical form: addresses strictly rising, and no cell holding what an unlisted address reads as. -/
abbrev Memory.wf (m : Memory) : Prop :=
  m.Pairwise (fun c d => c.1 < d.1) ∧ ∀ c ∈ m, c.2 ≠ Memory.unlisted

/-- Every listed address is an index of the 256-byte buffer GEN (R20, R30). -/
abbrev Memory.inGen (m : Memory) : Prop := ∀ c ∈ m, c.1 < Config.genSize

/-- Write the bytes of a sequence at consecutive indices from `i` (the loop of R131). -/
def Memory.writeFrom : Memory → Nat → List Byte → Memory
  | m, _, [] => m
  | m, i, v :: vs => Memory.writeFrom (m.write i v) (i + 1) vs

/-- The bytes at indices 0 up to `len`, in order: GEN[0 .. len] (R6). -/
def Memory.readSeq (m : Memory) (len : Nat) : List Byte := (List.range len).map m.read

/-- The generator polynomial GEN[0 .. GEN_LEN] (R20). Every index it reads must exist (R30). -/
def Regs.genSeq (r : Regs) : Except Fault (List Byte) :=
  if r.genLen.toNat ≤ Config.genSize then .ok (r.gen.readSeq r.genLen.toNat) else .error .genIndex

/-- Installation of a codec instance, one atomic update of every configuration register (R131, R135). CFG_N and CFG_K
take the low 9 bits of the operands (R17). Bytes of GEN at and above the new GEN_LEN keep what they held (U6; logs 5, 9). -/
def Regs.install (r : Regs) (n k : Half) (g : Byte) (G : List Byte) : Regs :=
  { cfgValid := true, cfgN := n.setWidth 9, cfgK := k.setWidth 9, cfgG := g,
    genLen := BitVec.ofNat 9 G.length, gen := r.gen.writeFrom 0 G }

/-- The state with one more response frame sent, and nothing else changed. -/
def State.answer (s : State) (frame : Frame) : State := { s with responses := s.responses ++ [frame] }

/-- End a command with status OK and its response (R6 "respond", R51). -/
def respond (r : Response) (s : State) : Host.Outcome State Fault Refusal := .next (s.answer r.bytes)

/-- End a command with a status other than OK: the one-byte response, and no state changed (R6 "raise", R152). -/
def raise (st : Status) (s : State) : Host.Outcome State Fault Refusal := .next (s.answer (Response.status st).bytes)

/-- The reset input (R170, R171): the registers take their reset values. The responses already sent stay sent, and
what the host does next is still to come (log 4). -/
def State.hostReset (s : State) : State := { s with regs := Regs.reset }

/-- The state with the first of the host's inputs taken. -/
def State.withInputs (s : State) (rest : List HostInput) : State := { s with inputs := rest }

/-- The state in which the host sends `frame` next, before anything else it was to do. -/
def State.present (s : State) (frame : Frame) : State := { s with inputs := .command frame :: s.inputs }

end Sys2Proof.Machine
end

