-- ==== Sys2Proof/Machine/Gf.lean ====
section
/-! DEFINITION. The meanings of the eleven field commands GF.* (41_field_ops.md R91 to R101). None reads or writes a
register. -/

namespace Sys2Proof.Machine

/-- GF.ZERO (R91). -/
def execGfZero (s : State) : Host.Outcome State Fault Refusal := respond (.value 0x00#8) s

/-- GF.ONE (R92). -/
def execGfOne (s : State) : Host.Outcome State Fault Refusal := respond (.value 0x01#8) s

/-- GF.ADD (R93). -/
def execGfAdd (a b : Byte) (s : State) : Host.Outcome State Fault Refusal := respond (.value (gfAdd a b)) s

/-- GF.SUB (R94). -/
def execGfSub (a b : Byte) (s : State) : Host.Outcome State Fault Refusal := respond (.value (gfSub a b)) s

/-- GF.MUL (R95). -/
def execGfMul (a b : Byte) (s : State) : Host.Outcome State Fault Refusal := respond (.value (gfMul a b)) s

/-- GF.DIV (R96): ABSENT when b = 0. -/
def execGfDiv (a b : Byte) (s : State) : Host.Outcome State Fault Refusal :=
  match gfDiv a b with
  | none => raise .absent s
  | some q => respond (.value q) s

/-- GF.INV (R97): ABSENT when a = 0. -/
def execGfInv (a : Byte) (s : State) : Host.Outcome State Fault Refusal :=
  match gfInv a with
  | none => raise .absent s
  | some v => respond (.value v) s

/-- GF.EXP (R98). -/
def execGfExp (a : Byte) (power : Half) (s : State) : Host.Outcome State Fault Refusal :=
  respond (.value (gfExp a power.toNat)) s

/-- GF.NEG (R99). -/
def execGfNeg (a : Byte) (s : State) : Host.Outcome State Fault Refusal := respond (.value (gfNeg a)) s

/-- GF.EQ (R100): the boolean as a byte. -/
def execGfEq (a b : Byte) (s : State) : Host.Outcome State Fault Refusal :=
  respond (.value (boolByte (gfEq a b))) s

/-- GF.FROMB (R101): the identity. -/
def execGfFromb (v : Byte) (s : State) : Host.Outcome State Fault Refusal := respond (.value v) s

end Sys2Proof.Machine
end

