-- ==== Sys2Proof/Machine/PolyOps.lean ====
section
/-! DEFINITION. The polynomial datapath norm, padd, psub, peval, pmul, pdivrem (42_polynomial.md R110 to R117) and the
generator polynomial (43_reed_solomon.md R133). A sequence holds the coefficient of the highest power first (R7).
Working storage is an argument of these functions and not state (R122). -/

namespace Sys2Proof.Machine

/-- `k` bytes 0x00 (R6 "zeros"). -/
def zeros (k : Nat) : List Byte := List.replicate k 0x00#8

/-- The zero polynomial (R110). -/
def zeroPoly : List Byte := [0x00#8]

/-- Construction (R111): leading zeros stripped; the zero polynomial where nothing is left. -/
def pnorm : List Byte → List Byte
  | [] => zeroPoly
  | c :: cs => if c = 0x00#8 then pnorm cs else c :: cs

/-- A polynomial value (R110): non-empty, and led by a nonzero coefficient unless it is `[0x00]`. -/
def Normalised (p : List Byte) : Prop := p = zeroPoly ∨ ∃ c cs, p = c :: cs ∧ c ≠ 0x00#8

/-- Zeros put in front, up to length `len` (R113: padding at the most-significant end). -/
def padTo (len : Nat) (p : List Byte) : List Byte := zeros (len - p.length) ++ p

/-- Addition (R113). -/
def padd (a b : List Byte) : List Byte :=
  let a := pnorm a
  let b := pnorm b
  let len := max a.length b.length
  pnorm (List.zipWith gfAdd (padTo len a) (padTo len b))

/-- Subtraction (R114). -/
def psub (a b : List Byte) : List Byte := padd a b

/-- Evaluation by Horner's method (R115), the coefficients folded left to right from the zero element. -/
def peval (p : List Byte) (x : Byte) : Byte := p.foldl (fun acc c => gfAdd c (gfMul acc x)) 0x00#8

/-- The inner loop of R116 for one coefficient `c`: buf[j] += c·b[j] for each j, skipping pairs with a zero. -/
def mulRow (c : Byte) : List Byte → List Byte → List Byte
  | [], buf => buf
  | _ :: _, [] => []
  | y :: ys, z :: zs =>
    (if c = 0x00#8 ∨ y = 0x00#8 then z else gfAdd z (gfMul c y)) :: mulRow c ys zs

/-- The outer loop of R116: coefficient i of `a` is worked into the buffer from index i on. The head of the buffer is
final once its own row is done, since every later row starts further right. -/
def convolve : List Byte → List Byte → List Byte → List Byte
  | [], _, buf => buf
  | c :: cs, b, buf =>
    match mulRow c b buf with
    | [] => []
    | z :: zs => z :: convolve cs b zs

/-- Multiplication by convolution (R116). -/
def pmul (a b : List Byte) : List Byte :=
  let a := pnorm a
  let b := pnorm b
  if a = zeroPoly ∨ b = zeroPoly then zeroPoly
  else convolve a b (zeros (a.length + b.length - 1))

/-- The inner loop of R117: buf[i+j] -= c·d[j] for j = 1 up, over the divisor's tail and the buffer after index i. -/
def subRow (c : Byte) : List Byte → List Byte → List Byte
  | [], buf => buf
  | _ :: _, [] => []
  | y :: ys, z :: zs => gfSub z (gfMul c y) :: subRow c ys zs

/-- The loop of R117 over `n` window positions of the buffer; `d0` and `ds` are the divisor's first coefficient and the
rest. The quotient coefficients come out first, what is left of the buffer second. `none` only if a quotient
coefficient is absent, which a nonzero `d0` excludes (R117, R155). -/
def divLoop (d0 : Byte) (ds : List Byte) : Nat → List Byte → Option (List Byte × List Byte)
  | 0, buf => some ([], buf)
  | _ + 1, [] => some ([], [])
  | n + 1, x :: buf =>
    match gfDiv x d0 with
    | none => none
    | some c =>
      match divLoop d0 ds n (if c = 0x00#8 then buf else subRow c ds buf) with
      | none => none
      | some (q, r) => some (c :: q, r)

/-- Division with remainder (R117). `none`: the divisor denotes the zero polynomial, where division is not defined
(U5). -/
def pdivrem (a d : List Byte) : Option (List Byte × List Byte) :=
  let a := pnorm a
  match pnorm d with
  | [] => none
  | d0 :: ds =>
    if d0 = 0x00#8 then none
    else if a.length < ds.length + 1 then some (zeroPoly, a)
    else
      match divLoop d0 ds (a.length - ds.length) a with
      | none => none
      | some (q, r) => some (pnorm q, pnorm r)

/-- The generator polynomial (R133): the product of [0x01, g^i] for i = 1 to n - k. -/
def genpoly (n k : Nat) (g : Byte) : List Byte :=
  (List.range' 1 (n - k)).foldl (fun G i => pmul G [0x01#8, gfExp g i]) [0x01#8]

end Sys2Proof.Machine
end

