-- ==== Sys2Proof/Machine/Poly.lean ====
section
/-! DEFINITION. The meanings of the polynomial commands POLY.* (42_polynomial.md R118, R119). -/

namespace Sys2Proof.Machine

/-- POLY.EVAL (R118): every sequence and every point is accepted. -/
def execPolyEval (x : Byte) (c : List Byte) (s : State) : Host.Outcome State Fault Refusal :=
  respond (.value (peval c x)) s

/-- POLY.MUL (R119): RANGE where a product of operands of these lengths, as sent, could exceed MAX_LEN elements. -/
def execPolyMul (a b : List Byte) (s : State) : Host.Outcome State Fault Refusal :=
  if Config.maxLen + 1 < a.length + b.length then raise .range s else respond (.sequence (pmul a b)) s

end Sys2Proof.Machine
end

