-- ==== Sys2Proof/Machine/Rs.lean ====
section
/-! DEFINITION. The meanings of the codec commands RS.* (43_reed_solomon.md R131 to R138, R141). -/

namespace Sys2Proof.Machine

/-- RS.CONFIG (R131, R132, R135): the validations in the spec's order, then construction and installation. -/
def execRsConfig (n k : Half) (g : Byte) (s : State) : Host.Outcome State Fault Refusal :=
  if n.toNat = 0 then raise .tooFewNumbers s
  else if k.toNat = 0 then raise .tooFewParity s
  else if Config.nMax < n.toNat then raise .tooManyNumbers s
  else if n.toNat < k.toNat then raise .range s
  else respond (.status .ok) { s with regs := s.regs.install n k g (genpoly n.toNat k.toNat g) }

/-- What RS.ENCODE and RS.CHECK do alike (R136, R137): the three checks in order, then the message polynomial
M = norm(m ++ zeros(CFG_K)) divided by GEN[0 .. GEN_LEN]; `answer` makes the response from M and the remainder. -/
def withRemainder (m : List Byte) (s : State) (answer : List Byte → List Byte → Response) :
    Host.Outcome State Fault Refusal :=
  if s.regs.cfgValid = false then raise .notConfigured s
  else if m.length = 0 then raise .invalidMessage s
  else if Config.maxLen < m.length + s.regs.cfgK.toNat then raise .range s
  else
    match s.regs.genSeq with
    | .error e => .fault e
    | .ok G =>
      match pdivrem (pnorm (m ++ zeros s.regs.cfgK.toNat)) G with
      | none => .refused .zeroDivisor
      | some (_, r) => respond (answer (pnorm (m ++ zeros s.regs.cfgK.toNat)) r) s

/-- RS.ENCODE (R136): the codeword polynomial M - r. -/
def execRsEncode (m : List Byte) (s : State) : Host.Outcome State Fault Refusal :=
  withRemainder m s (fun M r => .sequence (psub M r))

/-- RS.CHECK (R137): true exactly where the remainder is the zero polynomial. DESIGN CHOICE (log 14): for g = 0 and
n - k > k the pseudocode of R137 answers false to some changed codewords, where the last sentence of R142 says that with
g = 0 nothing is detected; the model follows the pseudocode. -/
def execRsCheck (m : List Byte) (s : State) : Host.Outcome State Fault Refusal :=
  withRemainder m s (fun _ r => .value (boolByte (r == zeroPoly)))

/-- RS.GENRD (R138): the generator polynomial, whole. -/
def execRsGenrd (s : State) : Host.Outcome State Fault Refusal :=
  if s.regs.cfgValid = false then raise .notConfigured s
  else
    match s.regs.genSeq with
    | .error e => .fault e
    | .ok G => respond (.sequence G) s

/-- RS.STAT (R141): answers OK whether or not an instance exists. -/
def execRsStat (s : State) : Host.Outcome State Fault Refusal :=
  respond (.config s.regs.cfgValid (s.regs.cfgN.setWidth 16) (s.regs.cfgK.setWidth 16) s.regs.cfgG) s

end Sys2Proof.Machine
end

