-- ==== Sys2Proof/Machine/Tbl.lean ====
section
/-! DEFINITION. The meanings of the three table reads TBL.* (40_field_tables.md R76 to R78). -/

namespace Sys2Proof.Machine

/-- TBL.LOG (R76): ABSENT when a = 0, since zero has no logarithm. -/
def execTblLog (a : Byte) (s : State) : Host.Outcome State Fault Refusal :=
  if a = 0x00#8 then raise .absent s else respond (.value (logAt a)) s

/-- TBL.ALOG (R77): RANGE when the index names no entry. -/
def execTblAlog (idx : Half) (s : State) : Host.Outcome State Fault Refusal :=
  if Config.alogLen ≤ idx.toNat then raise .range s else respond (.value (alogAt idx.toNat)) s

/-- TBL.INV (R78): ABSENT when a = 0. -/
def execTblInv (a : Byte) (s : State) : Host.Outcome State Fault Refusal :=
  if a = 0x00#8 then raise .absent s else respond (.value (invAt a)) s

end Sys2Proof.Machine
end

