-- ==== Sys2Proof/Machine/Dispatch.lean ====
section
/-! DEFINITION. One arm per command: each calls its meaning. -/

namespace Sys2Proof.Machine

def exec (i : Instr) (s : State) : Host.Outcome State Fault Refusal :=
  match i with
  -- the field commands
  | .gfZero => Sys2Proof.Machine.execGfZero s
  | .gfOne => Sys2Proof.Machine.execGfOne s
  | .gfAdd a b => Sys2Proof.Machine.execGfAdd a b s
  | .gfSub a b => Sys2Proof.Machine.execGfSub a b s
  | .gfMul a b => Sys2Proof.Machine.execGfMul a b s
  | .gfDiv a b => Sys2Proof.Machine.execGfDiv a b s
  | .gfInv a => Sys2Proof.Machine.execGfInv a s
  | .gfExp a power => Sys2Proof.Machine.execGfExp a power s
  | .gfNeg a => Sys2Proof.Machine.execGfNeg a s
  | .gfEq a b => Sys2Proof.Machine.execGfEq a b s
  | .gfFromb v => Sys2Proof.Machine.execGfFromb v s
  -- the table reads
  | .tblLog a => Sys2Proof.Machine.execTblLog a s
  | .tblAlog idx => Sys2Proof.Machine.execTblAlog idx s
  | .tblInv a => Sys2Proof.Machine.execTblInv a s
  -- the polynomial commands
  | .polyEval x c => Sys2Proof.Machine.execPolyEval x c s
  | .polyMul a b => Sys2Proof.Machine.execPolyMul a b s
  -- the codec commands
  | .rsConfig n k g => Sys2Proof.Machine.execRsConfig n k g s
  | .rsEncode m => Sys2Proof.Machine.execRsEncode m s
  | .rsCheck m => Sys2Proof.Machine.execRsCheck m s
  | .rsGenrd => Sys2Proof.Machine.execRsGenrd s
  | .rsStat => Sys2Proof.Machine.execRsStat s

end Sys2Proof.Machine
end

