-- ==== Sys2Proof/Machine/Port.lean ====
section
/-! DEFINITION. What the core does with each thing the host does: a command frame is decoded and executed, a malformed
one is answered ILLEGAL_COMMAND (30_encoding.md R45, R57), the reset input resets (70_reset_and_hazards.md R170, R171). -/

namespace Sys2Proof.Machine

/-- Execute one command frame (R45). A frame that is not well-formed is answered ILLEGAL_COMMAND and changes no state
(R57). -/
def runFrame (frame : Frame) (s : State) : Host.Outcome State Fault Refusal :=
  match decode frame with
  | .ok i => exec i s
  | .error _ => raise .illegalCommand s

/-- Take one input of the host. A command cut by reset sends no response, and whatever it had done is discarded
(R171). -/
def takeInput (input : HostInput) (s : State) : Host.Outcome State Fault Refusal :=
  match input with
  | .command frame => runFrame frame s
  | .reset => .next s.hostReset
  | .commandCutByReset _ => .next s.hostReset

/-- One step: the first input is taken. With none waiting the core stays ready for a frame and sends nothing (R45,
R161; log 2). -/
def takeNext (s : State) : Host.Outcome State Fault Refusal :=
  match s.inputs with
  | [] => .next s
  | input :: rest => takeInput input (s.withInputs rest)

end Sys2Proof.Machine
end

