-- ==== Sys2Proof/Machine/Step.lean ====
section
/-! DEFINITION. One step of the machine (30_encoding.md R45), and how a frame is put before it. -/

namespace Sys2Proof.Machine

/-- One step: one input of the host, taken whole (D1, R37). -/
def step (s : State) : Host.Outcome State Fault Refusal := takeNext s

/-- `s` with the frame of the instruction word `w` as the very next thing the host sends (logs 3, 12). -/
def State.withFetchWord (s : State) (nbits w : Nat) : State := s.present (frameOfWord nbits w)

end Sys2Proof.Machine
end

