-- ==== Sys2Proof/Safety.lean ====
section
/-! DEFINITION. The terms the claims are stated in: the invariant of a configuration (10_state.md R21), what it is for
the core to answer a frame (30_encoding.md R45), and which byte strings are response frames (R51 to R56). -/

namespace Sys2Proof.Machine

/-- What holds of the registers in every state a run reaches (R21, R24): GEN is a 256-byte buffer in canonical form; a
valid configuration has 1 <= CFG_K <= CFG_N <= 256, GEN_LEN = CFG_N - CFG_K + 1, and GEN[0 .. GEN_LEN] the generator
polynomial of (CFG_N, CFG_K, CFG_G); with no instance every register still has its reset value. -/
structure Regs.Inv (r : Regs) : Prop where
  genWf : r.gen.wf
  genInGen : r.gen.inGen
  kPos : r.cfgValid = true → 1 ≤ r.cfgK.toNat
  kLeN : r.cfgValid = true → r.cfgK.toNat ≤ r.cfgN.toNat
  nLe : r.cfgValid = true → r.cfgN.toNat ≤ Config.nMax
  genLenEq : r.cfgValid = true → r.genLen.toNat = r.cfgN.toNat - r.cfgK.toNat + 1
  genEq : r.cfgValid = true → r.gen.readSeq r.genLen.toNat = genpoly r.cfgN.toNat r.cfgK.toNat r.cfgG
  unconfigured : r.cfgValid = false → r = Regs.reset

/-- The safe states: those whose registers meet R21 and R24. -/
def State.Inv (s : State) : Prop := s.regs.Inv

/-- The core answers the frame `f` in state `s` with the response `r` and changes nothing else: the step that takes `f`
sends `r` and leaves the registers, the earlier responses and what the host does next as they were. -/
def Answers (s : State) (f r : Frame) : Prop := step (s.present f) = .next (s.answer r)

/-- The frames of some opcode whose length is not the one its format asks for are answered ILLEGAL_COMMAND (R57), for a
command whose frame has exactly `n` bytes. -/
def RefusesOtherLengths (op : Byte) (n : Nat) : Prop :=
  ∀ (s : State) (args : Frame), args.length + 1 ≠ n → Answers s (op :: args) [0x07#8]

/-- The byte strings that are response frames (R51 to R56): a status byte 0x01 to 0x08 alone or RS.CONFIG's 0x00; format
V; format Q, whose length field counts at least one element; format ST. -/
def LegalResponse (r : Frame) : Prop :=
  (∃ code : Byte, r = [code] ∧ code.toNat ≤ 8) ∨
  (∃ v : Byte, r = [0x00#8, v]) ∨
  (∃ (hi lo : Byte) (q : List Byte), r = 0x00#8 :: hi :: lo :: q ∧ q.length = (be16 hi lo).toNat ∧ 1 ≤ q.length) ∨
  (∃ nh nl kh kl g valid : Byte, r = [0x00#8, valid, nh, nl, kh, kl, g] ∧ valid.toNat ≤ 1)

/-- Which statuses a well-formed frame of each command can get (R151, less ILLEGAL_COMMAND, which a well-formed frame
never gets). -/
def opcodeStatuses : Opcode → List Status
  | .gfZero | .gfOne | .gfAdd | .gfSub | .gfMul | .gfExp | .gfNeg | .gfEq | .gfFromb => [.ok]
  | .gfDiv | .gfInv => [.ok, .absent]
  | .tblLog | .tblInv => [.ok, .absent]
  | .tblAlog => [.ok, .range]
  | .polyEval => [.ok]
  | .polyMul => [.ok, .range]
  | .rsConfig => [.ok, .tooFewNumbers, .tooFewParity, .tooManyNumbers, .range]
  | .rsEncode | .rsCheck => [.ok, .notConfigured, .invalidMessage, .range]
  | .rsGenrd => [.ok, .notConfigured]
  | .rsStat => [.ok]

/-- The generator polynomial of the registers, GEN[0 .. GEN_LEN] (R20). -/
def Regs.generator (r : Regs) : List Byte := r.gen.readSeq r.genLen.toNat

/-- The degree of the generator polynomial, d = CFG_N - CFG_K (R139). -/
def Regs.degree (r : Regs) : Nat := r.cfgN.toNat - r.cfgK.toNat

/-- The message polynomial M = norm(m ++ zeros(CFG_K)) of R136 and R137. -/
def Regs.message (r : Regs) (m : List Byte) : List Byte := pnorm (m ++ zeros r.cfgK.toNat)

/-- A message RS.ENCODE and RS.CHECK accept once an instance exists (R136, R137): not empty, and no longer than MAX_LEN
with its CFG_K padding bytes. -/
def Regs.accepts (r : Regs) (m : List Byte) : Prop :=
  r.cfgValid = true ∧ m ≠ [] ∧ m.length + r.cfgK.toNat ≤ 65535

/-- A response in format Q (R54): status OK, the number of elements in 16 bits, the elements. -/
def sequenceFrame (q : List Byte) : Frame := 0x00#8 :: (be16Bytes (lengthField q) ++ q)

/-- The codeword `C` is what RS.ENCODE answers to the message `m` (R136). -/
def Encodes (s : State) (m C : List Byte) : Prop := exec (.rsEncode m) s = .next (s.answer (sequenceFrame C))

/-- RS.CHECK's verdict on `m` is `v` (R137). -/
def Verdict (s : State) (m : List Byte) (v : Bool) : Prop :=
  exec (.rsCheck m) s = .next (s.answer [0x00#8, boolByte v])

end Sys2Proof.Machine
end

