-- ==== Sys2Proof/Certificates/Slice0/Obligations.lean ====
section
/-! DEFINITION. The statements about the model, for the provers. Each formalises what the rules named in its docstring
say; OBLIGATIONS.json lists them. -/

open Sys2Proof Sys2Proof.Machine

/-! ### Encoding and decoding -/

/-- R60 with R58: disassembling what the assembler made of a well-formed instruction gives the instruction back. -/
def Obligations.DecodeInvertsEncode : Prop :=
  ∀ i : Instr, i.wf = true → decode (encode i) = .ok i

/-- R60 with R58, the other direction: a frame the decoder accepts spells a well-formed instruction, and is the only
frame that does. -/
def Obligations.EncodeInvertsDecode : Prop :=
  ∀ (f : Frame) (i : Instr), decode f = .ok i → i.wf = true ∧ encode i = f

/-- R50 with R47 and R48: what each of the twenty-one opcodes spells, operands read from the offsets of its format,
16-bit fields as 256·hi + lo. -/
def Obligations.OpcodeMapSpellsTheCommands : Prop :=
  decode [0x00#8] = .ok .gfZero ∧
  decode [0x01#8] = .ok .gfOne ∧
  (∀ a b : Byte,
    decode [0x02#8, a, b] = .ok (.gfAdd a b) ∧
    decode [0x03#8, a, b] = .ok (.gfSub a b) ∧
    decode [0x04#8, a, b] = .ok (.gfMul a b) ∧
    decode [0x05#8, a, b] = .ok (.gfDiv a b) ∧
    decode [0x09#8, a, b] = .ok (.gfEq a b)) ∧
  (∀ a : Byte,
    decode [0x06#8, a] = .ok (.gfInv a) ∧
    decode [0x08#8, a] = .ok (.gfNeg a) ∧
    decode [0x0A#8, a] = .ok (.gfFromb a) ∧
    decode [0x10#8, a] = .ok (.tblLog a) ∧
    decode [0x12#8, a] = .ok (.tblInv a)) ∧
  (∀ (a hi lo : Byte) (power : Half), power.toNat = 256 * hi.toNat + lo.toNat →
    decode [0x07#8, a, hi, lo] = .ok (.gfExp a power)) ∧
  (∀ (hi lo : Byte) (idx : Half), idx.toNat = 256 * hi.toNat + lo.toNat →
    decode [0x11#8, hi, lo] = .ok (.tblAlog idx)) ∧
  (∀ (x hi lo : Byte) (c : List Byte), c.length = 256 * hi.toNat + lo.toNat →
    decode (0x20#8 :: x :: hi :: lo :: c) = .ok (.polyEval x c)) ∧
  (∀ (ah al bh bl : Byte) (a b : List Byte), a.length = 256 * ah.toNat + al.toNat →
    b.length = 256 * bh.toNat + bl.toNat →
    decode (0x21#8 :: ah :: al :: bh :: bl :: (a ++ b)) = .ok (.polyMul a b)) ∧
  (∀ (nh nl kh kl g : Byte) (n k : Half), n.toNat = 256 * nh.toNat + nl.toNat → k.toNat = 256 * kh.toNat + kl.toNat →
    decode [0x30#8, nh, nl, kh, kl, g] = .ok (.rsConfig n k g)) ∧
  (∀ (hi lo : Byte) (m : List Byte), m.length = 256 * hi.toNat + lo.toNat →
    decode (0x31#8 :: hi :: lo :: m) = .ok (.rsEncode m) ∧
    decode (0x32#8 :: hi :: lo :: m) = .ok (.rsCheck m)) ∧
  decode [0x33#8] = .ok .rsGenrd ∧
  decode [0x34#8] = .ok .rsStat

/-- R49: a frame is well-formed exactly when its opcode is assigned and its actual length is the length its format and
its length fields require. -/
def Obligations.WellFormedFramesAreThoseOfRequiredLength : Prop :=
  ∀ f : Frame, (∃ i, decode f = .ok i) ↔
    (∃ op, f = [op] ∧ op ∈ [0x00#8, 0x01#8, 0x33#8, 0x34#8]) ∨
    (∃ op a, f = [op, a] ∧ op ∈ [0x06#8, 0x08#8, 0x0A#8, 0x10#8, 0x12#8]) ∨
    (∃ op a b, f = [op, a, b] ∧ op ∈ [0x02#8, 0x03#8, 0x04#8, 0x05#8, 0x09#8]) ∨
    (∃ a ph pl, f = [0x07#8, a, ph, pl]) ∨
    (∃ ih il, f = [0x11#8, ih, il]) ∨
    (∃ nh nl kh kl g, f = [0x30#8, nh, nl, kh, kl, g]) ∨
    (∃ (x lh ll : Byte) (c : List Byte), f = 0x20#8 :: x :: lh :: ll :: c ∧
      f.length = 4 + (256 * lh.toNat + ll.toNat)) ∨
    (∃ (ah al bh bl : Byte) (ab : List Byte), f = 0x21#8 :: ah :: al :: bh :: bl :: ab ∧
      f.length = 5 + (256 * ah.toNat + al.toNat) + (256 * bh.toNat + bl.toNat)) ∨
    (∃ (op lh ll : Byte) (m : List Byte), f = op :: lh :: ll :: m ∧ op ∈ [0x31#8, 0x32#8] ∧
      f.length = 3 + (256 * lh.toNat + ll.toNat))

/-- R60's table: nine frames written out there decode to the lines they stand for. -/
def Obligations.SampleFramesDecode : Prop :=
  decode [0x00#8] = .ok .gfZero ∧
  decode [0x04#8, 0x57#8, 0x83#8] = .ok (.gfMul 0x57#8 0x83#8) ∧
  decode [0x07#8, 0x03#8, 0x00#8, 0xFF#8] = .ok (.gfExp 0x03#8 255#16) ∧
  decode [0x11#8, 0x01#8, 0x2C#8] = .ok (.tblAlog 300#16) ∧
  decode [0x20#8, 0x0A#8, 0x00#8, 0x03#8, 0x01#8, 0x01#8, 0x01#8] = .ok (.polyEval 0x0A#8 [0x01#8, 0x01#8, 0x01#8]) ∧
  decode [0x21#8, 0x00#8, 0x02#8, 0x00#8, 0x02#8, 0x01#8, 0x03#8, 0x01#8, 0x09#8]
    = .ok (.polyMul [0x01#8, 0x03#8] [0x01#8, 0x09#8]) ∧
  decode [0x30#8, 0x00#8, 0x07#8, 0x00#8, 0x04#8, 0x03#8] = .ok (.rsConfig 7#16 4#16 0x03#8) ∧
  decode [0x31#8, 0x00#8, 0x03#8, 0x01#8, 0x02#8, 0x03#8] = .ok (.rsEncode [0x01#8, 0x02#8, 0x03#8]) ∧
  decode [0x32#8, 0x00#8, 0x00#8] = .ok (.rsCheck [])

/-- R57: the empty frame, a frame with an unassigned opcode, and a frame of an assigned opcode that does not have the
required length of R49 are answered ILLEGAL_COMMAND (0x07) and change no state. -/
def Obligations.MalformedFramesAnswerIllegalCommand : Prop :=
  (∀ s : State, Answers s [] [0x07#8]) ∧
  (∀ (s : State) (op : Byte) (rest : Frame),
    ((0x0B ≤ op.toNat ∧ op.toNat ≤ 0x0F) ∨ (0x13 ≤ op.toNat ∧ op.toNat ≤ 0x1F) ∨
     (0x22 ≤ op.toNat ∧ op.toNat ≤ 0x2F) ∨ 0x35 ≤ op.toNat) →
    Answers s (op :: rest) [0x07#8]) ∧
  (∀ (s : State) (f : Frame), requiredLength f ≠ some f.length → Answers s f [0x07#8])

/-- R54 and R31: a format Q response is status OK, the number of elements most significant byte first, the elements. -/
def Obligations.SequenceResponseCarriesItsLength : Prop :=
  ∀ q : List Byte, q.length ≤ 65535 →
    ∃ hi lo : Byte, (Response.sequence q).bytes = 0x00#8 :: hi :: lo :: q ∧ 256 * hi.toNat + lo.toNat = q.length

/-! ### The machine -/

/-- R45: the step that takes a well-formed frame runs its command, where the frame has been taken from the port. -/
def Obligations.StepRunsDecodedInstruction : Prop :=
  ∀ (s : State) (f : Frame) (rest : List HostInput) (i : Instr),
    s.inputs = .command f :: rest → decode f = .ok i → step s = exec i { s with inputs := rest }

/-- R45 ("the core never sends a frame unasked"; log 2): with nothing at its inputs the core does not move. -/
def Obligations.IdleCoreChangesNothing : Prop :=
  ∀ s : State, s.inputs = [] → step s = .next s

/-- R24: the registers after reset, every byte of GEN reading 0x00; and the three read-only memories are valid at once:
the first frame after reset can already read every defined entry. -/
def Obligations.ResetStateIsAsTabulated : Prop :=
  State.reset.regs.cfgValid = false ∧ State.reset.regs.cfgN = 0#9 ∧ State.reset.regs.cfgK = 0#9 ∧
  State.reset.regs.cfgG = 0x00#8 ∧ State.reset.regs.genLen = 0#9 ∧
  (∀ i, State.reset.regs.gen.read i = 0x00#8) ∧
  (∀ a : Byte, a ≠ 0x00#8 → Answers State.reset [0x10#8, a] [0x00#8, logAt a] ∧
    Answers State.reset [0x12#8, a] [0x00#8, invAt a]) ∧
  (∀ hi lo : Byte, 256 * hi.toNat + lo.toNat < 510 →
    Answers State.reset [0x11#8, hi, lo] [0x00#8, alogAt (256 * hi.toNat + lo.toNat)])

/-- R170 and R171: asserting reset puts the core in the reset state of R24, whether or not a command was outstanding;
the outstanding command's response is not sent; and reset is the only way CFG_VALID becomes 0 again. That the frames
answered before and the host's later inputs stay as they were is the model's choice (log 4). -/
def Obligations.HostResetIsTheOnlyWayBack : Prop :=
  (∀ (s : State) (rest : List HostInput), s.inputs = .reset :: rest →
    step s = .next { regs := State.reset.regs, inputs := rest, responses := s.responses }) ∧
  (∀ (s : State) (f : Frame) (rest : List HostInput), s.inputs = .commandCutByReset f :: rest →
    step s = .next { regs := State.reset.regs, inputs := rest, responses := s.responses }) ∧
  (∀ s t : State, step s = .next t → s.regs.cfgValid = true → t.regs.cfgValid = false →
    ∃ rest, s.inputs = .reset :: rest ∨ ∃ f, s.inputs = .commandCutByReset f :: rest)

/-- R45 and R157: the core answers every byte string sent to it as a command frame with exactly one response frame and
never stops. The lists of inputs and responses are the model's picture of the two ports (log 1). -/
def Obligations.EveryFrameGetsExactlyOneResponse : Prop :=
  ∀ (s : State) (f : Frame) (rest : List HostInput), s.Inv → s.inputs = .command f :: rest →
    ∃ (t : State) (r : Frame), step s = .next t ∧ t.responses = s.responses ++ [r] ∧ t.inputs = rest ∧ r ≠ []

/-- R157: every step completes, whatever the host does; nothing faults, is refused or hangs. -/
def Obligations.EveryStepCompletes : Prop :=
  ∀ s : State, s.Inv → ∃ t, step s = .next t

/-- R21 and R24 as an invariant: every step keeps it. -/
def Obligations.StepKeepsTheRegisterInvariant : Prop :=
  ∀ s t : State, s.Inv → step s = .next t → t.Inv

/-- The invariant holds right after reset (R24). -/
def Obligations.ResetMeetsTheRegisterInvariant : Prop := State.reset.Inv

/-- R21: whatever the host has done since reset, a valid configuration has 1 <= CFG_K <= CFG_N <= 256, GEN_LEN =
CFG_N - CFG_K + 1, GEN[0] = 0x01, GEN[0 .. GEN_LEN] the generator polynomial of its parameters, and is normalised. -/
def Obligations.ValidConfigurationHasItsGenerator : Prop :=
  ∀ (inputs : List HostInput) (k : Nat) (s : State),
    Host.Core.run Sys2Proof.core k { State.reset with inputs := inputs } = .next s → s.regs.cfgValid = true →
    1 ≤ s.regs.cfgK.toNat ∧ s.regs.cfgK.toNat ≤ s.regs.cfgN.toNat ∧ s.regs.cfgN.toNat ≤ 256 ∧
    s.regs.genLen.toNat = s.regs.cfgN.toNat - s.regs.cfgK.toNat + 1 ∧
    s.regs.gen.read 0 = 0x01#8 ∧
    s.regs.generator = genpoly s.regs.cfgN.toNat s.regs.cfgK.toNat s.regs.cfgG ∧
    Normalised s.regs.generator

/-- R152: a command that ends with a status other than OK changes no state. -/
def Obligations.NonOkStatusChangesNoRegister : Prop :=
  ∀ (s t : State) (f : Frame) (rest : List HostInput) (r : Frame), s.inputs = .command f :: rest → step s = .next t →
    t.responses = s.responses ++ [r] → r.head? ≠ some 0x00#8 →
    t = { s with inputs := rest, responses := s.responses ++ [r] } ∧ r.length = 1

/-- R151: the statuses each command can return, complete: a well-formed frame gets one of its command's statuses, and
every other frame ILLEGAL_COMMAND. -/
def Obligations.StatusesAreThoseOfTheTable : Prop :=
  ∀ (s t : State) (f : Frame) (rest : List HostInput), s.inputs = .command f :: rest → step s = .next t →
    (∀ i, decode f = .ok i →
      ∃ r st, t.responses = s.responses ++ [r] ∧ st ∈ opcodeStatuses i.opcode ∧ r.head? = some st.code) ∧
    ((∀ i, decode f ≠ .ok i) → t.responses = s.responses ++ [[0x07#8]])

/-- R16 to R20 and R130: the registers change only by reset or by an RS.CONFIG that passes its tests and answers OK. -/
def Obligations.OnlyConfigAndResetWriteRegisters : Prop :=
  ∀ s t : State, step s = .next t → t.regs ≠ s.regs →
    (∃ rest, (s.inputs = .reset :: rest ∨ ∃ f, s.inputs = .commandCutByReset f :: rest) ∧
      t.regs = State.reset.regs) ∨
    (∃ (n k : Half) (g : Byte) (rest : List HostInput), s.inputs = .command (encode (.rsConfig n k g)) :: rest ∧
      1 ≤ k.toNat ∧ k.toNat ≤ n.toNat ∧ n.toNat ≤ 256 ∧ t.responses = s.responses ++ [[0x00#8]])

/-- R51 to R56 and R150 as an invariant: every frame on the response port is a response frame; codes 0x09 to 0xFF are
never sent. -/
def Obligations.ResponsesStayLegal : Prop :=
  ∀ s t : State, s.Inv → (∀ r ∈ s.responses, LegalResponse r) → step s = .next t → ∀ r ∈ t.responses, LegalResponse r

/-- R144 and R153: a response and the new registers are a function of the frame and the registers alone. -/
def Obligations.ResponseDependsOnFrameAndRegisters : Prop :=
  ∀ (s₁ s₂ : State) (f : Frame), s₁.Inv → s₁.regs = s₂.regs →
    ∃ (r : Frame) (regs : Regs),
      step (s₁.present f) = .next { regs := regs, inputs := s₁.inputs, responses := s₁.responses ++ [r] } ∧
      step (s₂.present f) = .next { regs := regs, inputs := s₂.inputs, responses := s₂.responses ++ [r] }

/-- R175: frames other than RS.CONFIG's commute: each gets the response it would get alone, in either order. -/
def Obligations.ReadingCommandsCommute : Prop :=
  ∀ (s : State) (f₁ f₂ : Frame), s.Inv → f₁.head? ≠ some 0x30#8 → f₂.head? ≠ some 0x30#8 →
    ∃ r₁ r₂, Answers s f₁ r₁ ∧ Answers s f₂ r₂ ∧ Answers (s.answer r₁) f₂ r₂ ∧ Answers (s.answer r₂) f₁ r₁

/-- R122 and R173: a frame of the GF, TBL and POLY families gets the same response whatever the configuration, in every
state. -/
def Obligations.ArithmeticIgnoresTheConfiguration : Prop :=
  ∀ (f : Frame) (op : Byte), f.head? = some op → op.toNat < 0x30 → ∃ r, ∀ s : State, Answers s f r

/-! ### The tables and the field -/

/-- R72 and R73: the contents of LOG, ALOG and INV without the loop, T being TABLE_GEN. -/
def Obligations.TablesHoldPowersOfTheGenerator : Prop :=
  (∀ i, i < 510 → alogAt i = clmulPow Config.tableGen (i % 255)) ∧
  (∀ a : Byte, a ≠ 0x00#8 → (logAt a).toNat ≤ 254 ∧ clmulPow Config.tableGen (logAt a).toNat = a ∧
    ∀ e, e ≤ 254 → clmulPow Config.tableGen e = a → e = (logAt a).toNat) ∧
  (∀ a : Byte, a ≠ 0x00#8 → invAt a = alogAt (255 - (logAt a).toNat))

/-- R71: the loop from 0x01 by steps of multiplication by 0x03 fills ALOG twice over and LOG once, and closes after 255
steps. -/
def Obligations.TableLoopBuildsTheListings : Prop :=
  (List.range 510).map alogAt = tableCycle 255 0x01#8 ++ tableCycle 255 0x01#8 ∧
  (∀ i, i < 255 → (logAt ((tableCycle 255 0x01#8).getD i 0x00#8)).toNat = i) ∧
  (tableCycle 256 0x01#8).getLast? = some 0x01#8 ∧
  (∀ v : Byte, tableStep v = clmulMod v Config.tableGen)

/-- R74: the properties of the contents; and, of R35, the ranges of the indices the arithmetic forms. -/
def Obligations.TableContentsAndIndexBounds : Prop :=
  (∀ a : Byte, a ≠ 0x00#8 → alogAt (logAt a).toNat = a) ∧
  (∀ i, i < 255 → (logAt (alogAt i)).toNat = i) ∧
  (∀ i, i < 255 → alogAt (i + 255) = alogAt i) ∧
  alogAt 0 = 0x01#8 ∧ alogAt 255 = 0x01#8 ∧ alogAt 1 = 0x03#8 ∧ (∀ i, i < 510 → alogAt i ≠ 0x00#8) ∧
  logAt 0x01#8 = 0#8 ∧ logAt 0x03#8 = 1#8 ∧ logAt 0x02#8 = 25#8 ∧
  (∀ a : Byte, a ≠ 0x00#8 → invAt a ≠ 0x00#8 ∧ invAt (invAt a) = a ∧ (invAt a = a → a = 0x01#8)) ∧
  invAt 0x01#8 = 0x01#8 ∧
  ((List.range 255).map (fun i => (logAt (BitVec.ofNat 8 (i + 1))).toNat)).sum = 32385 ∧
  ((List.range 510).map (fun i => (alogAt i).toNat)).sum = 65280 ∧
  ((List.range 510).map alogAt).foldl gfAdd 0x00#8 = 0x00#8 ∧
  ((List.range 255).map (fun i => (invAt (BitVec.ofNat 8 (i + 1))).toNat)).sum = 32640 ∧
  (∀ a b : Byte, a ≠ 0x00#8 → b ≠ 0x00#8 → (logAt a).toNat + (logAt b).toNat ≤ 508) ∧
  (∀ a : Byte, a ≠ 0x00#8 → 1 ≤ 255 - (logAt a).toNat ∧ 255 - (logAt a).toNat ≤ 255) ∧
  (∀ (a : Byte) (p : Nat), a ≠ 0x00#8 → (logAt a).toNat * p % 255 ≤ 254)

/-- R75: any element T of order 255 gives the same products, inverses and powers through its own logarithms. -/
def Obligations.FieldResultsIgnoreTheTableGenerator : Prop :=
  ∀ T : Byte, (∀ a : Byte, a ≠ 0x00#8 → ∃ e, e ≤ 254 ∧ clmulPow T e = a) →
    ∀ la lb : Nat, la ≤ 254 → lb ≤ 254 →
      clmulPow T (la + lb) = gfMul (clmulPow T la) (clmulPow T lb) ∧
      gfInv (clmulPow T la) = some (clmulPow T (255 - la)) ∧
      ∀ p, clmulPow T (la * p % 255) = gfExp (clmulPow T la) p

/-- R102: the laws the document states and those the polynomial rules rely on. -/
def Obligations.FieldLawsHold : Prop :=
  (∀ a b : Byte, gfAdd a b = gfAdd b a ∧ gfAdd a 0x00#8 = a ∧ gfAdd a a = 0x00#8) ∧
  (∀ a b : Byte, gfMul a b = gfMul b a ∧ gfMul a 0x01#8 = a ∧ gfMul a 0x00#8 = 0x00#8) ∧
  (∀ a : Byte, a ≠ 0x00#8 → ∃ v, gfInv a = some v ∧ gfMul a v = 0x01#8) ∧
  (∀ a : Byte, gfDiv a 0x00#8 = none) ∧
  (∀ a : Byte, gfExp a 0 = 0x01#8) ∧ (∀ p, 0 < p → gfExp 0x00#8 p = 0x00#8) ∧
  (∀ a b c : Byte, gfMul (gfMul a b) c = gfMul a (gfMul b c)) ∧
  (∀ a b c : Byte, gfMul a (gfAdd b c) = gfAdd (gfMul a b) (gfMul a c)) ∧
  (∀ a b : Byte, gfMul a b = 0x00#8 → a = 0x00#8 ∨ b = 0x00#8) ∧
  (∀ a b : Byte, b ≠ 0x00#8 → gfDiv (gfMul a b) b = some a) ∧
  (∀ (a : Byte) (p q : Nat), gfExp a (p + q) = gfMul (gfExp a p) (gfExp a q))

/-! ### The field commands -/

/-- R91, R92, R99 and R101: GF.ZERO answers 0x00, GF.ONE 0x01, and GF.NEG and GF.FROMB their operand, in every
state. -/
def Obligations.ConstantsAndIdentitiesAnswer : Prop :=
  (∀ s : State, exec .gfZero s = .next (s.answer [0x00#8, 0x00#8]) ∧
    exec .gfOne s = .next (s.answer [0x00#8, 0x01#8]) ∧
    Answers s [0x00#8] [0x00#8, 0x00#8] ∧ Answers s [0x01#8] [0x00#8, 0x01#8]) ∧
  (∀ (a : Byte) (s : State), exec (.gfNeg a) s = .next (s.answer [0x00#8, a]) ∧
    exec (.gfFromb a) s = .next (s.answer [0x00#8, a]) ∧
    Answers s [0x08#8, a] [0x00#8, a] ∧ Answers s [0x0A#8, a] [0x00#8, a]) ∧
  RefusesOtherLengths 0x00#8 1 ∧ RefusesOtherLengths 0x01#8 1 ∧
  RefusesOtherLengths 0x08#8 2 ∧ RefusesOtherLengths 0x0A#8 2 ∧
  gfNeg 0x00#8 = 0x00#8 ∧ (∀ a : Byte, gfAdd a (gfNeg a) = 0x00#8)

/-- R93 and R94: GF.ADD and GF.SUB both answer the exclusive or, in every state, for all operands. -/
def Obligations.AddAndSubAnswerXor : Prop :=
  (∀ (a b : Byte) (s : State), exec (.gfAdd a b) s = .next (s.answer [0x00#8, a ^^^ b]) ∧
    exec (.gfSub a b) s = .next (s.answer [0x00#8, a ^^^ b])) ∧
  (∀ (a b : Byte) (s : State), Answers s [0x02#8, a, b] [0x00#8, a ^^^ b] ∧
    Answers s [0x03#8, a, b] [0x00#8, a ^^^ b]) ∧
  RefusesOtherLengths 0x02#8 3 ∧ RefusesOtherLengths 0x03#8 3 ∧
  (∀ a b : Byte, gfAdd a 0x00#8 = a ∧ gfAdd a a = 0x00#8 ∧ gfSub a b = gfSub b a ∧ gfSub a b = gfAdd a b ∧
    gfSub 0x00#8 b = b ∧ gfSub a a = 0x00#8) ∧
  gfAdd 0xFF#8 0xFF#8 = 0x00#8 ∧ gfAdd 0xFF#8 0x00#8 = 0xFF#8 ∧ gfAdd 0x57#8 0x83#8 = 0xD4#8

/-- R95 and R103: GF.MUL answers zero if an operand is zero and ALOG[LOG[a] + LOG[b]] otherwise, which is the product
in GF(2)[x]/(FIELD_POLY), for all operands and in every state. -/
def Obligations.MulAnswersTheFieldProduct : Prop :=
  (∀ (a b : Byte) (s : State), exec (.gfMul a b) s = .next (s.answer [0x00#8, clmulMod a b])) ∧
  (∀ (a b : Byte) (s : State), Answers s [0x04#8, a, b] [0x00#8, clmulMod a b]) ∧
  (∀ a b : Byte, gfMul a b = clmulMod a b) ∧
  RefusesOtherLengths 0x04#8 3 ∧
  (∀ a b : Byte, a ≠ 0x00#8 → b ≠ 0x00#8 → (logAt a).toNat + (logAt b).toNat ≤ 508 ∧
    clmulMod a b = alogAt ((logAt a).toNat + (logAt b).toNat)) ∧
  (∀ a b : Byte, clmulMod a 0x00#8 = 0x00#8 ∧ clmulMod 0x00#8 b = 0x00#8 ∧ clmulMod a 0x01#8 = a) ∧
  clmulMod 0xFF#8 0xFF#8 = 0x13#8 ∧ clmulMod 0x80#8 0x02#8 = 0x1B#8 ∧ clmulMod 0x53#8 0xCA#8 = 0x01#8 ∧
  clmulMod 0x57#8 0x83#8 = 0xC1#8

/-- R96: GF.DIV is ABSENT exactly when b = 0, tested first, and otherwise answers the q with q·b = a. -/
def Obligations.DivAnswersTheQuotient : Prop :=
  (∀ (a : Byte) (s : State), exec (.gfDiv a 0x00#8) s = .next (s.answer [0x01#8]) ∧
    Answers s [0x05#8, a, 0x00#8] [0x01#8]) ∧
  (∀ a b : Byte, b ≠ 0x00#8 → ∃ q : Byte, gfMul q b = a ∧ (a = 0x00#8 → q = 0x00#8) ∧
    (∀ inv, gfInv b = some inv → q = gfMul a inv) ∧
    ∀ s : State, exec (.gfDiv a b) s = .next (s.answer [0x00#8, q]) ∧ Answers s [0x05#8, a, b] [0x00#8, q]) ∧
  RefusesOtherLengths 0x05#8 3 ∧
  (∀ a : Byte, gfDiv a 0x01#8 = some a) ∧ (∀ a : Byte, a ≠ 0x00#8 → gfDiv a a = some 0x01#8) ∧
  (∀ b : Byte, gfDiv 0x01#8 b = gfInv b) ∧ gfDiv 0xC1#8 0x83#8 = some 0x57#8

/-- R97 and R78: GF.INV and TBL.INV are ABSENT for 0 and otherwise answer, both alike, the element whose product with
the operand is one. -/
def Obligations.InverseCommandsAnswerTheInverse : Prop :=
  (∀ s : State, exec (.gfInv 0x00#8) s = .next (s.answer [0x01#8]) ∧
    exec (.tblInv 0x00#8) s = .next (s.answer [0x01#8]) ∧
    Answers s [0x06#8, 0x00#8] [0x01#8] ∧ Answers s [0x12#8, 0x00#8] [0x01#8]) ∧
  (∀ a : Byte, a ≠ 0x00#8 → ∃ v : Byte, gfMul a v = 0x01#8 ∧ v = invAt a ∧
    v = alogAt (255 - (logAt a).toNat) ∧ gfInv v = some a ∧
    ∀ s : State, exec (.gfInv a) s = .next (s.answer [0x00#8, v]) ∧
      exec (.tblInv a) s = .next (s.answer [0x00#8, v]) ∧
      Answers s [0x06#8, a] [0x00#8, v] ∧ Answers s [0x12#8, a] [0x00#8, v]) ∧
  RefusesOtherLengths 0x06#8 2 ∧ RefusesOtherLengths 0x12#8 2 ∧
  gfInv 0x01#8 = some 0x01#8 ∧ gfInv 0x02#8 = some 0x8D#8 ∧ gfInv 0xFF#8 = some 0x1C#8 ∧ gfInv 0x53#8 = some 0xCA#8

/-- R98: GF.EXP answers the power-fold product under R103, which is one for power 0 and zero for a = 0 with power > 0,
and ALOG[(LOG[a] · power) mod 255] otherwise, the product exact. -/
def Obligations.ExpAnswersThePower : Prop :=
  (∀ (a : Byte) (power : Half) (s : State),
    exec (.gfExp a power) s = .next (s.answer [0x00#8, clmulPow a power.toNat])) ∧
  (∀ (a hi lo : Byte) (s : State),
    Answers s [0x07#8, a, hi, lo] [0x00#8, clmulPow a (256 * hi.toNat + lo.toNat)]) ∧
  RefusesOtherLengths 0x07#8 4 ∧
  (∀ a : Byte, gfExp a 0 = 0x01#8) ∧ (∀ p, 0 < p → gfExp 0x00#8 p = 0x00#8) ∧
  (∀ (a : Byte) (p : Nat), a ≠ 0x00#8 → 0 < p → gfExp a p = alogAt ((logAt a).toNat * p % 255)) ∧
  (∀ (a : Byte) (p : Nat), gfExp a p = clmulPow a p) ∧
  (∀ a : Byte, gfExp a 1 = a) ∧ (∀ a : Byte, a ≠ 0x00#8 → gfExp a 255 = 0x01#8 ∧ gfExp a 256 = a) ∧
  (∀ p, gfExp 0x01#8 p = 0x01#8) ∧ gfExp 0x02#8 51 = 0x01#8 ∧ gfExp 0x02#8 8 = 0x1B#8 ∧ gfExp 0x03#8 7 = 0xFF#8 ∧
  gfExp 0x02#8 65535 = 0x01#8

/-- R100: GF.EQ answers 0x01 where the operands are the same byte and 0x00 where they are not. -/
def Obligations.EqAnswersByteEquality : Prop :=
  (∀ (a : Byte) (s : State), exec (.gfEq a a) s = .next (s.answer [0x00#8, 0x01#8]) ∧
    Answers s [0x09#8, a, a] [0x00#8, 0x01#8]) ∧
  (∀ (a b : Byte) (s : State), a ≠ b → exec (.gfEq a b) s = .next (s.answer [0x00#8, 0x00#8]) ∧
    Answers s [0x09#8, a, b] [0x00#8, 0x00#8]) ∧
  RefusesOtherLengths 0x09#8 3 ∧
  (∀ a b : Byte, gfEq a b = true ↔ gfAdd a b = 0x00#8)

/-- R76: TBL.LOG is ABSENT for 0 and otherwise answers the logarithm, which is never 0xFF. -/
def Obligations.TblLogAnswersTheLogarithm : Prop :=
  (∀ s : State, exec (.tblLog 0x00#8) s = .next (s.answer [0x01#8]) ∧ Answers s [0x10#8, 0x00#8] [0x01#8]) ∧
  (∀ a : Byte, a ≠ 0x00#8 → ∃ v : Byte, v = logAt a ∧ clmulPow Config.tableGen v.toNat = a ∧ v ≠ 0xFF#8 ∧
    ∀ s : State, exec (.tblLog a) s = .next (s.answer [0x00#8, v]) ∧ Answers s [0x10#8, a] [0x00#8, v]) ∧
  RefusesOtherLengths 0x10#8 2 ∧ logAt 0x01#8 = 0x00#8 ∧ logAt 0x02#8 = 0x19#8

/-- R77: TBL.ALOG is RANGE from index 510 on and otherwise answers the entry, which is never 0x00. -/
def Obligations.TblAlogAnswersTheEntry : Prop :=
  (∀ (idx : Half) (s : State), 510 ≤ idx.toNat → exec (.tblAlog idx) s = .next (s.answer [0x08#8])) ∧
  (∀ idx : Half, idx.toNat < 510 → ∃ v : Byte, v = alogAt idx.toNat ∧ v = clmulPow Config.tableGen idx.toNat ∧
    v ≠ 0x00#8 ∧ ∀ s : State, exec (.tblAlog idx) s = .next (s.answer [0x00#8, v])) ∧
  (∀ (hi lo : Byte) (s : State), 510 ≤ 256 * hi.toNat + lo.toNat → Answers s [0x11#8, hi, lo] [0x08#8]) ∧
  (∀ (hi lo : Byte) (s : State), 256 * hi.toNat + lo.toNat < 510 →
    Answers s [0x11#8, hi, lo] [0x00#8, alogAt (256 * hi.toNat + lo.toNat)]) ∧
  RefusesOtherLengths 0x11#8 3 ∧ alogAt 0 = 0x01#8 ∧ alogAt 255 = 0x01#8 ∧ alogAt 509 = alogAt 254 ∧
  alogAt 25 = 0x02#8

/-! ### Polynomials -/

/-- R110 and R111: construction strips leading zeros, gives [0x00] where nothing is left, never fails, is idempotent,
and leaves the polynomial that a sequence denotes unchanged. -/
def Obligations.ConstructionNormalises : Prop :=
  (∀ s : List Byte, Normalised (pnorm s) ∧ pnorm s ≠ [] ∧ pnorm (pnorm s) = pnorm s) ∧
  (∀ s : List Byte, (∀ c ∈ s, c = 0x00#8) → pnorm s = [0x00#8]) ∧
  (∀ (j : Nat) (c : Byte) (cs : List Byte), c ≠ 0x00#8 → pnorm (zeros j ++ c :: cs) = c :: cs) ∧
  (∀ (s : List Byte) (x : Byte), peval (pnorm s) x = peval s x)

/-- R112: every polynomial the datapath returns, the generator polynomial among them, is normalised; and every function
depends on its operands' normal forms alone. -/
def Obligations.PolynomialResultsAreNormalised : Prop :=
  ∀ a b : List Byte, Normalised (padd a b) ∧ Normalised (psub a b) ∧ Normalised (pmul a b) ∧
    (∀ q r, pdivrem a b = some (q, r) → Normalised q ∧ Normalised r) ∧
    padd (pnorm a) (pnorm b) = padd a b ∧ psub (pnorm a) (pnorm b) = psub a b ∧
    pmul (pnorm a) (pnorm b) = pmul a b ∧ pdivrem (pnorm a) (pnorm b) = pdivrem a b ∧
    (∀ x, peval (pnorm a) x = peval a x) ∧ (∀ n k g, Normalised (genpoly n k g))

/-- R113 and R114: polynomial addition, which is also subtraction: coefficients of equal powers are added, whichever
operand is shorter; it is a commutative group law of exponent two on polynomial values. -/
def Obligations.PolynomialAdditionLaws : Prop :=
  (∀ a b : List Byte, a.length = b.length → a ≠ [] → padd a b = pnorm (List.zipWith gfAdd a b)) ∧
  (∀ (a b : List Byte) (j : Nat), padd (zeros j ++ a) b = padd a b) ∧
  (∀ a b : List Byte, padd a b = padd b a) ∧
  (∀ a b c : List Byte, padd (padd a b) c = padd a (padd b c)) ∧
  (∀ a : List Byte, padd a [0x00#8] = pnorm a ∧ padd a a = [0x00#8]) ∧
  (∀ (a b : List Byte) (x : Byte), peval (padd a b) x = gfAdd (peval a x) (peval b x)) ∧
  (∀ a b : List Byte, psub a b = padd a b) ∧
  padd [0x01#8, 0x02#8, 0x03#8] [0x01#8, 0x07#8, 0x07#8] = [0x05#8, 0x04#8]

/-- R115: Horner's method gives the value at the point: each coefficient times the power of the point its place says. -/
def Obligations.HornerEvaluatesThePolynomial : Prop :=
  (∀ x : Byte, peval [] x = 0x00#8) ∧
  (∀ (c : Byte) (cs : List Byte) (x : Byte), peval (c :: cs) x = gfAdd (gfMul c (gfExp x cs.length)) (peval cs x)) ∧
  (∀ (p : List Byte) (c x : Byte), peval (p ++ [c]) x = gfAdd c (gfMul (peval p x) x)) ∧
  (∀ (j : Nat) (p : List Byte) (x : Byte), peval (zeros j ++ p) x = peval p x) ∧
  (∀ (p : List Byte) (c : Byte), peval (p ++ [c]) 0x00#8 = c) ∧
  (∀ p : List Byte, peval p 0x01#8 = p.foldl gfAdd 0x00#8)

/-- R118: POLY.EVAL answers the value, in every state, for every sequence and every point. -/
def Obligations.PolyEvalAnswersTheValue : Prop :=
  (∀ (x : Byte) (c : List Byte) (s : State), exec (.polyEval x c) s = .next (s.answer [0x00#8, peval c x])) ∧
  (∀ (x hi lo : Byte) (c : List Byte) (s : State), c.length = 256 * hi.toNat + lo.toNat →
    Answers s (0x20#8 :: x :: hi :: lo :: c) [0x00#8, peval c x]) ∧
  (∀ (x hi lo : Byte) (c : List Byte) (s : State), c.length ≠ 256 * hi.toNat + lo.toNat →
    Answers s (0x20#8 :: x :: hi :: lo :: c) [0x07#8]) ∧
  (∀ (rest : Frame) (s : State), rest.length < 3 → Answers s (0x20#8 :: rest) [0x07#8]) ∧
  (∀ (j : Nat) (c : List Byte) (x : Byte), peval (zeros j ++ c) x = peval c x ∧ peval (zeros j) x = 0x00#8) ∧
  (∀ (c : List Byte) (v : Byte), peval (c ++ [v]) 0x00#8 = v ∧ peval c 0x01#8 = c.foldl gfAdd 0x00#8) ∧
  peval [0x01#8, 0x01#8, 0x01#8] 0x0A#8 = 0x4F#8

/-- R116: pmul is the exact product: coefficient t is the sum of a[i]·b[t-i], its length is la + lb - 1 for nonzero
operands, and it is commutative, associative, distributive over padd, with identity [0x01]. -/
def Obligations.PolynomialProductLaws : Prop :=
  (∀ a b : List Byte, pnorm a = [0x00#8] ∨ pnorm b = [0x00#8] → pmul a b = [0x00#8]) ∧
  (∀ a b : List Byte, pnorm a ≠ [0x00#8] → pnorm b ≠ [0x00#8] →
    (pmul a b).length = (pnorm a).length + (pnorm b).length - 1 ∧
    ∀ t, t < (pmul a b).length → (pmul a b).getD t 0x00#8 =
      (List.range (t + 1)).foldl
        (fun acc i => gfAdd acc (gfMul ((pnorm a).getD i 0x00#8) ((pnorm b).getD (t - i) 0x00#8))) 0x00#8) ∧
  (∀ a b : List Byte, pmul a b = pmul b a) ∧
  (∀ a b c : List Byte, pmul (pmul a b) c = pmul a (pmul b c)) ∧
  (∀ a b c : List Byte, pmul a (padd b c) = padd (pmul a b) (pmul a c)) ∧
  (∀ a : List Byte, pmul a [0x01#8] = pnorm a) ∧
  (∀ (a b : List Byte) (x : Byte), peval (pmul a b) x = gfMul (peval a x) (peval b x))

/-- R119: POLY.MUL is RANGE when LA + LB > 65536 as sent, and otherwise answers the product, in every state. -/
def Obligations.PolyMulAnswersTheProduct : Prop :=
  (∀ (a b : List Byte) (s : State), 65536 < a.length + b.length →
    exec (.polyMul a b) s = .next (s.answer [0x08#8])) ∧
  (∀ (a b : List Byte) (s : State), a.length + b.length ≤ 65536 →
    exec (.polyMul a b) s = .next (s.answer (sequenceFrame (pmul a b))) ∧ (pmul a b).length ≤ 65535) ∧
  (∀ (ah al bh bl : Byte) (a b : List Byte) (s : State), a.length = 256 * ah.toNat + al.toNat →
    b.length = 256 * bh.toNat + bl.toNat →
    step (s.present (0x21#8 :: ah :: al :: bh :: bl :: (a ++ b))) = exec (.polyMul a b) s) ∧
  (∀ (ah al bh bl : Byte) (ab : List Byte) (s : State),
    ab.length ≠ (256 * ah.toNat + al.toNat) + (256 * bh.toNat + bl.toNat) →
    Answers s (0x21#8 :: ah :: al :: bh :: bl :: ab) [0x07#8]) ∧
  (∀ (rest : Frame) (s : State), rest.length < 4 → Answers s (0x21#8 :: rest) [0x07#8]) ∧
  (∀ (a b : List Byte) (s : State), a.length + b.length ≤ 65536 → pnorm a = [0x00#8] ∨ pnorm b = [0x00#8] →
    exec (.polyMul a b) s = .next (s.answer [0x00#8, 0x00#8, 0x01#8, 0x00#8])) ∧
  pmul [0x01#8, 0x03#8] [0x01#8, 0x09#8] = [0x01#8, 0x0A#8, 0x1B#8]

/-- R117: division with remainder: for a divisor that does not denote zero it is defined, its quotient and remainder
give back the dividend, the remainder is [0x00] or shorter than the divisor, and no other pair is so; for a divisor
that denotes zero it is not defined. And R121's three properties. -/
def Obligations.DivisionGivesQuotientAndRemainder : Prop :=
  (∀ a d : List Byte, pnorm d ≠ [0x00#8] →
    ∃ q r, pdivrem a d = some (q, r) ∧ padd (pmul q d) r = pnorm a ∧
      (r = [0x00#8] ∨ r.length < (pnorm d).length) ∧
      ∀ q' r', Normalised q' → Normalised r' → padd (pmul q' d) r' = pnorm a →
        (r' = [0x00#8] ∨ r'.length < (pnorm d).length) → q' = q ∧ r' = r) ∧
  (∀ a d : List Byte, pnorm d ≠ [0x00#8] → (pnorm a).length < (pnorm d).length →
    pdivrem a d = some ([0x00#8], pnorm a)) ∧
  (∀ (a : List Byte) (c : Byte), c ≠ 0x00#8 → ∃ q, pdivrem a [c] = some (q, [0x00#8])) ∧
  (∀ p : List Byte, pnorm p ≠ [0x00#8] → pdivrem p p = some ([0x01#8], [0x00#8])) ∧
  (∀ a d : List Byte, pnorm d = [0x00#8] → pdivrem a d = none) ∧
  (∀ p : List Byte, padd p p = [0x00#8]) ∧ peval [0x01#8, 0x01#8, 0x01#8] 0x0A#8 = 0x4F#8

/-! ### The codec -/

/-- R133: the generator polynomial is monic of degree n - k; the powers g^1 .. g^(n-k) are its roots; its factors may be
taken in any order; its last coefficient is the product of the powers. -/
def Obligations.GeneratorPolynomialShape : Prop :=
  ∀ (n k : Nat) (g : Byte), 1 ≤ k → k ≤ n → n ≤ 256 →
    (genpoly n k g).length = n - k + 1 ∧ (genpoly n k g).head? = some 0x01#8 ∧
    (n = k → genpoly n k g = [0x01#8]) ∧
    (∀ i, 1 ≤ i → i ≤ n - k → peval (genpoly n k g) (gfExp g i) = 0x00#8) ∧
    (∀ order : List Nat, order.Perm (List.range' 1 (n - k)) →
      order.foldl (fun G i => pmul G [0x01#8, gfExp g i]) [0x01#8] = genpoly n k g) ∧
    (genpoly n k g).getLast? = some ((List.range' 1 (n - k)).foldl (fun acc i => gfMul acc (gfExp g i)) 0x01#8)

/-- R134: every g is accepted: RS.CONFIG answers OK for each; g = 0 gives x^(n-k), g = 1 gives (x+1)^(n-k), and powers of
g repeat with its order. -/
def Obligations.AnyGeneratorElementIsAccepted : Prop :=
  (∀ (n k : Half) (g : Byte) (s : State), 1 ≤ k.toNat → k.toNat ≤ n.toNat → n.toNat ≤ 256 →
    ∃ t, exec (.rsConfig n k g) s = .next t ∧ t.responses = s.responses ++ [[0x00#8]] ∧ t.regs.cfgG = g) ∧
  (∀ k m : Nat, genpoly (k + m) k 0x00#8 = 0x01#8 :: zeros m) ∧
  (∀ k m : Nat, genpoly (k + m) k 0x01#8 = (fun G => pmul G [0x01#8, 0x01#8])^[m] [0x01#8]) ∧
  (∀ (g : Byte) (m i : Nat), gfExp g m = 0x01#8 → gfExp g (i + m) = gfExp g i)

/-- R132: RS.CONFIG's tests in their order, each failure answered with its own status and nothing changed; operands that
pass them are accepted, k = n and n = 256 among them. -/
def Obligations.ConfigTestsInOrder : Prop :=
  (∀ (n k : Half) (g : Byte) (s : State), n.toNat = 0 → exec (.rsConfig n k g) s = .next (s.answer [0x02#8])) ∧
  (∀ (n k : Half) (g : Byte) (s : State), n.toNat ≠ 0 → k.toNat = 0 →
    exec (.rsConfig n k g) s = .next (s.answer [0x03#8])) ∧
  (∀ (n k : Half) (g : Byte) (s : State), k.toNat ≠ 0 → 256 < n.toNat →
    exec (.rsConfig n k g) s = .next (s.answer [0x04#8])) ∧
  (∀ (n k : Half) (g : Byte) (s : State), n.toNat ≠ 0 → n.toNat ≤ 256 → n.toNat < k.toNat →
    exec (.rsConfig n k g) s = .next (s.answer [0x08#8])) ∧
  (∀ (nh nl kh kl g : Byte) (s : State),
    step (s.present [0x30#8, nh, nl, kh, kl, g]) = exec (.rsConfig (be16 nh nl) (be16 kh kl) g) s) ∧
  (∀ (n k : Half) (g : Byte) (s : State), 1 ≤ k.toNat → k.toNat ≤ n.toNat → n.toNat ≤ 256 →
    ∃ t, exec (.rsConfig n k g) s = .next t ∧ t.responses = s.responses ++ [[0x00#8]]) ∧
  RefusesOtherLengths 0x30#8 6

/-- R135: an accepted RS.CONFIG installs the new instance whole: every register takes its value, GEN[0 .. GEN_LEN] the
generator polynomial; one whose tests fail writes nothing. That every byte of GEN at or above GEN_LEN reads as before is
the model's choice (log 5, DEDUCED from U6 and R33): U6 lets such a byte be any value. -/
def Obligations.ConfigInstallsTheInstance : Prop :=
  (∀ (n k : Half) (g : Byte) (s : State), s.regs.gen.wf → 1 ≤ k.toNat → k.toNat ≤ n.toNat → n.toNat ≤ 256 →
    ∃ t, exec (.rsConfig n k g) s = .next t ∧ t.responses = s.responses ++ [[0x00#8]] ∧ t.inputs = s.inputs ∧
      t.regs.cfgValid = true ∧ t.regs.cfgN.toNat = n.toNat ∧ t.regs.cfgK.toNat = k.toNat ∧ t.regs.cfgG = g ∧
      t.regs.genLen.toNat = n.toNat - k.toNat + 1 ∧
      (∀ i, i < t.regs.genLen.toNat → t.regs.gen.read i = (genpoly n.toNat k.toNat g).getD i 0x00#8) ∧
      (∀ i, t.regs.genLen.toNat ≤ i → t.regs.gen.read i = s.regs.gen.read i)) ∧
  (∀ (n k : Half) (g : Byte) (s : State), k.toNat = 0 ∨ n.toNat < k.toNat ∨ 256 < n.toNat →
    ∃ code : Byte, code ≠ 0x00#8 ∧ exec (.rsConfig n k g) s = .next (s.answer [code]))

/-- R136: RS.ENCODE: its three statuses in their order; and for an accepted message the codeword M - r, which is a
multiple of the generator polynomial. -/
def Obligations.EncodeAnswersACodeword : Prop :=
  (∀ (m : List Byte) (s : State), s.regs.cfgValid = false → exec (.rsEncode m) s = .next (s.answer [0x06#8])) ∧
  (∀ s : State, s.regs.cfgValid = true → exec (.rsEncode []) s = .next (s.answer [0x05#8])) ∧
  (∀ (m : List Byte) (s : State), s.regs.cfgValid = true → m ≠ [] → 65535 < m.length + s.regs.cfgK.toNat →
    exec (.rsEncode m) s = .next (s.answer [0x08#8])) ∧
  (∀ (m : List Byte) (s : State), s.Inv → s.regs.accepts m →
    ∃ q r, pdivrem (s.regs.message m) s.regs.generator = some (q, r) ∧
      Encodes s m (psub (s.regs.message m) r) ∧
      psub (s.regs.message m) r = pmul q s.regs.generator ∧
      ∃ q', pdivrem (psub (s.regs.message m) r) s.regs.generator = some (q', [0x00#8])) ∧
  (∀ (hi lo : Byte) (m : List Byte) (s : State), m.length = 256 * hi.toNat + lo.toNat →
    step (s.present (0x31#8 :: hi :: lo :: m)) = exec (.rsEncode m) s) ∧
  (∀ (hi lo : Byte) (m : List Byte) (s : State), m.length ≠ 256 * hi.toNat + lo.toNat →
    Answers s (0x31#8 :: hi :: lo :: m) [0x07#8]) ∧
  (∀ (rest : Frame) (s : State), rest.length < 2 → Answers s (0x31#8 :: rest) [0x07#8])

/-- R137: RS.CHECK: its three statuses in their order; and for an accepted message, true exactly where the padded
message leaves remainder [0x00]. Where g = 0 and n - k > k this is the model's choice between R137 and R142 (log 14). -/
def Obligations.CheckAnswersTheVerdict : Prop :=
  (∀ (m : List Byte) (s : State), s.regs.cfgValid = false → exec (.rsCheck m) s = .next (s.answer [0x06#8])) ∧
  (∀ s : State, s.regs.cfgValid = true → exec (.rsCheck []) s = .next (s.answer [0x05#8])) ∧
  (∀ (m : List Byte) (s : State), s.regs.cfgValid = true → m ≠ [] → 65535 < m.length + s.regs.cfgK.toNat →
    exec (.rsCheck m) s = .next (s.answer [0x08#8])) ∧
  (∀ (m : List Byte) (s : State), s.Inv → s.regs.accepts m →
    ∃ q r, pdivrem (s.regs.message m) s.regs.generator = some (q, r) ∧
      (r = [0x00#8] → exec (.rsCheck m) s = .next (s.answer [0x00#8, 0x01#8])) ∧
      (r ≠ [0x00#8] → exec (.rsCheck m) s = .next (s.answer [0x00#8, 0x00#8]))) ∧
  (∀ (hi lo : Byte) (m : List Byte) (s : State), m.length = 256 * hi.toNat + lo.toNat →
    step (s.present (0x32#8 :: hi :: lo :: m)) = exec (.rsCheck m) s) ∧
  (∀ (hi lo : Byte) (m : List Byte) (s : State), m.length ≠ 256 * hi.toNat + lo.toNat →
    Answers s (0x32#8 :: hi :: lo :: m) [0x07#8]) ∧
  (∀ (rest : Frame) (s : State), rest.length < 2 → Answers s (0x32#8 :: rest) [0x07#8])

/-- R137's corner cases: with g nonzero the check says whether the message itself is divisible by the generator
polynomial; with CFG_K = CFG_N every message is valid; with g = 0 and n - k <= k every message is valid; a message of
zero bytes is valid. Nothing is said of g = 0 with n - k > k, where R137 and R142 differ (log 14). -/
def Obligations.CheckMeansDivisibility : Prop :=
  ∀ (m : List Byte) (s : State), s.Inv → s.regs.accepts m →
    (s.regs.cfgG ≠ 0x00#8 →
      (Verdict s m true ↔ ∃ q, pdivrem m s.regs.generator = some (q, [0x00#8]))) ∧
    (s.regs.cfgK = s.regs.cfgN → Verdict s m true) ∧
    (s.regs.cfgG = 0x00#8 → s.regs.degree ≤ s.regs.cfgK.toNat → Verdict s m true) ∧
    ((∀ c ∈ m, c = 0x00#8) → Verdict s m true)

/-- R139: when the codeword keeps the message. m' is the message without its leading zero bytes, d the degree of the
generator polynomial: with d <= k the codeword is m', then k - len(r) zero bytes, then r; with d > k and len(m') + k > d
the remainder r, of at most d bytes, is added into the low end of m' followed by k zero bytes, and nothing else
changes. -/
def Obligations.CodewordKeepsTheMessage : Prop :=
  ∀ (m : List Byte) (s : State), s.Inv → s.regs.accepts m → pnorm m ≠ [0x00#8] →
    s.regs.message m = pnorm m ++ zeros s.regs.cfgK.toNat ∧
    (s.regs.degree ≤ s.regs.cfgK.toNat →
      ∃ q r, pdivrem (s.regs.message m) s.regs.generator = some (q, r) ∧ r.length ≤ s.regs.cfgK.toNat ∧
        Encodes s m (pnorm m ++ (zeros (s.regs.cfgK.toNat - r.length) ++ r))) ∧
    (s.regs.cfgK.toNat < s.regs.degree → s.regs.degree < (pnorm m).length + s.regs.cfgK.toNat →
      ∃ q r kept low, pdivrem (s.regs.message m) s.regs.generator = some (q, r) ∧ r.length ≤ s.regs.degree ∧
        s.regs.message m = kept ++ low ∧ low.length = r.length ∧
        Encodes s m (kept ++ List.zipWith gfAdd low r) ∧
        ∃ q', pdivrem (kept ++ List.zipWith gfAdd low r) s.regs.generator = some (q', [0x00#8]))

/-- R140: RS.ENCODE's codeword has len(m') + k bytes where that exceeds the degree of the generator polynomial, and one
byte otherwise and for a message of zero bytes, however long the message; and RS.CHECK gives the same answer with or
without leading zero bytes. -/
def Obligations.CodewordLengthIsThePolynomialLength : Prop :=
  (∀ (m : List Byte) (s : State), s.Inv → s.regs.accepts m →
    ∃ C, Encodes s m C ∧
      (pnorm m ≠ [0x00#8] → s.regs.degree < (pnorm m).length + s.regs.cfgK.toNat →
        C.length = (pnorm m).length + s.regs.cfgK.toNat) ∧
      (pnorm m = [0x00#8] ∨ (pnorm m).length + s.regs.cfgK.toNat ≤ s.regs.degree → C.length = 1)) ∧
  (∀ (m : List Byte) (j : Nat) (s : State), s.Inv → s.regs.accepts m → s.regs.accepts (zeros j ++ m) →
    exec (.rsCheck (zeros j ++ m)) s = exec (.rsCheck m) s)

/-- R143: the short-message case: a padded message of lower degree than the generator polynomial, and any message of
zero bytes only, is answered 00 00 01 00, and RS.CHECK of that answer is true. -/
def Obligations.ShortMessagesEncodeToZero : Prop :=
  ∀ (m : List Byte) (s : State), s.Inv → s.regs.accepts m →
    ((pnorm m).length + s.regs.cfgK.toNat ≤ s.regs.degree ∨ ∀ c ∈ m, c = 0x00#8) →
    exec (.rsEncode m) s = .next (s.answer [0x00#8, 0x00#8, 0x01#8, 0x00#8]) ∧
    exec (.rsCheck [0x00#8]) s = .next (s.answer [0x00#8, 0x01#8])

/-- R142, the round trip: RS.CHECK answers true to every codeword RS.ENCODE answers that is not itself too long for
it. -/
def Obligations.CheckAcceptsEveryCodeword : Prop :=
  ∀ (m C : List Byte) (s : State), s.Inv → s.regs.accepts m → Encodes s m C →
    C.length + s.regs.cfgK.toNat ≤ 65535 → exec (.rsCheck C) s = .next (s.answer [0x00#8, 0x01#8])

/-- R142, corruption: with g nonzero and at least one root, any one byte of a codeword replaced by another value makes
RS.CHECK answer false. -/
def Obligations.CheckDetectsEverySingleByteChange : Prop :=
  ∀ (m C : List Byte) (s : State) (j : Nat) (v : Byte), s.Inv → s.regs.accepts m → Encodes s m C →
    C.length + s.regs.cfgK.toNat ≤ 65535 → s.regs.cfgG ≠ 0x00#8 → 1 ≤ s.regs.degree →
    j < C.length → v ≠ C.getD j 0x00#8 →
    exec (.rsCheck (C.set j v)) s = .next (s.answer [0x00#8, 0x00#8])

/-- R138: RS.GENRD is NOT_CONFIGURED without an instance and otherwise answers the generator polynomial whole, from 1
byte (k = n) to 256, led by 0x01. -/
def Obligations.GenrdAnswersTheGenerator : Prop :=
  (∀ s : State, s.regs.cfgValid = false → exec .rsGenrd s = .next (s.answer [0x06#8]) ∧ Answers s [0x33#8] [0x06#8]) ∧
  (∀ s : State, s.Inv → s.regs.cfgValid = true →
    exec .rsGenrd s = .next (s.answer (sequenceFrame s.regs.generator)) ∧
    Answers s [0x33#8] (sequenceFrame s.regs.generator) ∧
    s.regs.generator.length = s.regs.cfgN.toNat - s.regs.cfgK.toNat + 1 ∧ s.regs.generator.length ≤ 256 ∧
    s.regs.generator.head? = some 0x01#8) ∧
  RefusesOtherLengths 0x33#8 1

/-- R141 with R55: RS.STAT answers OK in every state, with CFG_VALID as a byte, CFG_N and CFG_K extended to 16 bits, most
significant byte first, and CFG_G; right after reset all are zero. -/
def Obligations.StatAnswersTheRegisters : Prop :=
  (∀ s : State, ∃ valid nh nl kh kl : Byte,
    exec .rsStat s = .next (s.answer [0x00#8, valid, nh, nl, kh, kl, s.regs.cfgG]) ∧
    Answers s [0x34#8] [0x00#8, valid, nh, nl, kh, kl, s.regs.cfgG] ∧
    (s.regs.cfgValid = true → valid = 0x01#8) ∧ (s.regs.cfgValid = false → valid = 0x00#8) ∧
    256 * nh.toNat + nl.toNat = s.regs.cfgN.toNat ∧ 256 * kh.toNat + kl.toNat = s.regs.cfgK.toNat) ∧
  Answers State.reset [0x34#8] [0x00#8, 0x00#8, 0x00#8, 0x00#8, 0x00#8, 0x00#8, 0x00#8] ∧
  RefusesOtherLengths 0x34#8 1

/-- R154: one command reports one status, in the order ILLEGAL_COMMAND, NOT_CONFIGURED, the document's validations,
ABSENT, RANGE. -/
def Obligations.StatusPriority : Prop :=
  (∀ (s : State) (f : Frame), (∀ i, decode f ≠ .ok i) → Answers s f [0x07#8]) ∧
  (∀ (s : State) (m : List Byte), s.regs.cfgValid = false →
    exec (.rsEncode m) s = .next (s.answer [0x06#8]) ∧ exec (.rsCheck m) s = .next (s.answer [0x06#8]) ∧
    exec .rsGenrd s = .next (s.answer [0x06#8])) ∧
  (∀ (s : State), s.regs.cfgValid = true →
    exec (.rsEncode []) s = .next (s.answer [0x05#8]) ∧ exec (.rsCheck []) s = .next (s.answer [0x05#8])) ∧
  (∀ (s : State) (n k : Half) (g : Byte),
    exec (.rsConfig n k g) s = .next (s.answer [0x02#8]) ↔ n.toNat = 0) ∧
  (∀ (s : State) (n k : Half) (g : Byte),
    exec (.rsConfig n k g) s = .next (s.answer [0x03#8]) ↔ n.toNat ≠ 0 ∧ k.toNat = 0) ∧
  (∀ (s : State) (n k : Half) (g : Byte),
    exec (.rsConfig n k g) s = .next (s.answer [0x04#8]) ↔ k.toNat ≠ 0 ∧ 256 < n.toNat) ∧
  (∀ (s : State) (n k : Half) (g : Byte),
    exec (.rsConfig n k g) s = .next (s.answer [0x08#8]) ↔ 1 ≤ n.toNat ∧ n.toNat ≤ 256 ∧ n.toNat < k.toNat) ∧
  (∀ (s : State) (a : Byte), exec (.gfDiv a 0x00#8) s = .next (s.answer [0x01#8]))
end

