-- ==== Sys2Proof/Laws/Field.lean ====
section
/-! SUPPORT. What the tables hold and what the field functions compute: the table entries are the powers of TABLE_GEN,
every internal index is in range (20_memory.md R35), and gf_mul is multiplication by iterating the table step. Later
proofs cite these and never look into the listings. -/

namespace Sys2Proof.Machine

/-! ### The tables -/

theorem alogAt_succ : ∀ i, i < 509 → alogAt (i + 1) = tableStep (alogAt i) := by decide +kernel

theorem alogAt_zero : alogAt 0 = 0x01#8 := by decide +kernel

theorem alogAt_cycleLen : alogAt 255 = 0x01#8 := by decide +kernel

/-- Logarithms of nonzero bytes lie in 0 to 254 (R13), so LOG sums stay below ALOG's length (R35). -/
theorem logAt_le : ∀ a : Byte, a ≠ 0x00#8 → (logAt a).toNat ≤ 254 := by decide +kernel

/-- ALOG undoes LOG (R74). -/
theorem alogAt_logAt : ∀ a : Byte, a ≠ 0x00#8 → alogAt (logAt a).toNat = a := by decide +kernel

/-- LOG undoes the first copy of the cycle (R74). -/
theorem logAt_alogAt : ∀ i, i < 255 → (logAt (alogAt i)).toNat = i := by decide +kernel

theorem alogAt_ne_zero : ∀ i, i < 510 → alogAt i ≠ 0x00#8 := by decide +kernel

/-- INV as the formula of R73, the index corrected by 90_conflicts.md C2. -/
theorem invAt_eq : ∀ a : Byte, a ≠ 0x00#8 → invAt a = alogAt (255 - (logAt a).toNat) := by decide +kernel

theorem gfMul_invAt : ∀ a : Byte, a ≠ 0x00#8 → gfMul a (invAt a) = 0x01#8 := by decide +kernel

theorem invAt_ne_zero : ∀ a : Byte, a ≠ 0x00#8 → invAt a ≠ 0x00#8 := by decide +kernel

theorem alogAt_eq_iterate (i : Nat) (hi : i < 510) : alogAt i = tableStep^[i] 0x01#8 := by
  induction i with
  | zero => exact alogAt_zero
  | succ n ih => rw [alogAt_succ n (by omega), ih (by omega), Function.iterate_succ_apply']

theorem iterate_alogAt (i j : Nat) (h : i + j < 510) : tableStep^[i] (alogAt j) = alogAt (i + j) := by
  rw [alogAt_eq_iterate j (by omega), alogAt_eq_iterate (i + j) h, Function.iterate_add_apply]

/-- The cycle closes after 255 steps (R71). -/
theorem iterate_cycleLen : tableStep^[255] 0x01#8 = 0x01#8 := by
  rw [← alogAt_eq_iterate 255 (by omega), alogAt_cycleLen]

theorem iterate_mod (n : Nat) : tableStep^[n % 255] 0x01#8 = tableStep^[n] 0x01#8 := by
  have h : ∀ k, tableStep^[255 * k] 0x01#8 = 0x01#8 := by
    intro k
    induction k with
    | zero => rfl
    | succ k ih => rw [Nat.mul_succ, Function.iterate_add_apply, iterate_cycleLen, ih]
  conv_rhs => rw [← Nat.mod_add_div n 255, Function.iterate_add_apply, h]

/-! ### The table step is additive -/

theorem xtime_eq_shift : ∀ v : Byte, xtime v = (v <<< 1) ^^^ (if v.msb then 0x1B#8 else 0x00#8) := by
  decide +kernel

theorem xtime_xor (x y : Byte) : xtime (x ^^^ y) = xtime x ^^^ xtime y := by
  simp only [xtime_eq_shift, BitVec.msb_xor, BitVec.shiftLeft_xor_distrib]
  cases x.msb <;> cases y.msb <;>
    simp only [Bool.xor_false, Bool.xor_true, Bool.not_false, Bool.not_true, if_true, if_false, Bool.false_eq_true,
      BitVec.xor_zero]
  · ac_rfl
  · ac_rfl
  · rw [BitVec.xor_assoc, BitVec.xor_comm (y <<< 1) 0x1B#8, ← BitVec.xor_assoc 0x1B#8, BitVec.xor_self,
      BitVec.zero_xor]

theorem tableStep_xor (x y : Byte) : tableStep (x ^^^ y) = tableStep x ^^^ tableStep y := by
  simp only [tableStep, xtime_xor]
  ac_rfl

theorem iterate_tableStep_xor (n : Nat) (x y : Byte) :
    tableStep^[n] (x ^^^ y) = tableStep^[n] x ^^^ tableStep^[n] y := by
  induction n generalizing x y with
  | zero => rfl
  | succ n ih => simp only [Function.iterate_succ_apply, tableStep_xor, ih]

theorem iterate_tableStep_zero (n : Nat) : tableStep^[n] 0x00#8 = 0x00#8 := by
  induction n with
  | zero => rfl
  | succ n ih => rw [Function.iterate_succ_apply, show tableStep 0x00#8 = 0x00#8 by decide, ih]

/-! ### Addition -/

@[simp] theorem gfSub_eq_gfAdd (a b : Byte) : gfSub a b = gfAdd a b := rfl

theorem gfAdd_comm (a b : Byte) : gfAdd a b = gfAdd b a := BitVec.xor_comm a b

theorem gfAdd_assoc (a b c : Byte) : gfAdd (gfAdd a b) c = gfAdd a (gfAdd b c) := BitVec.xor_assoc a b c

@[simp] theorem gfAdd_zero (a : Byte) : gfAdd a 0x00#8 = a := BitVec.xor_zero

@[simp] theorem zero_gfAdd (a : Byte) : gfAdd 0x00#8 a = a := BitVec.zero_xor

@[simp] theorem gfAdd_self (a : Byte) : gfAdd a a = 0x00#8 := BitVec.xor_self

@[simp] theorem gfAdd_self_left (a b : Byte) : gfAdd a (gfAdd a b) = b := by
  rw [← gfAdd_assoc, gfAdd_self, zero_gfAdd]

theorem gfAdd_eq_zero (a b : Byte) : gfAdd a b = 0x00#8 ↔ a = b := BitVec.xor_eq_zero_iff

/-! ### Multiplication -/

@[simp] theorem gfMul_zero (a : Byte) : gfMul a 0x00#8 = 0x00#8 := by simp [gfMul]

@[simp] theorem zero_gfMul (a : Byte) : gfMul 0x00#8 a = 0x00#8 := by simp [gfMul]

/-- Multiplication by `a` is the table step, LOG[a] times over. -/
theorem gfMul_eq_iterate (a b : Byte) (ha : a ≠ 0x00#8) : gfMul a b = tableStep^[(logAt a).toNat] b := by
  by_cases hb : b = 0x00#8
  · rw [hb, gfMul_zero, iterate_tableStep_zero]
  · have hla := logAt_le a ha
    have hlb := logAt_le b hb
    rw [gfMul, if_neg (by simp [ha, hb]), ← iterate_alogAt _ _ (by omega), alogAt_logAt b hb]

theorem gfMul_comm (a b : Byte) : gfMul a b = gfMul b a := by
  simp only [gfMul, Nat.add_comm, or_comm]

theorem gfMul_assoc (a b c : Byte) : gfMul (gfMul a b) c = gfMul a (gfMul b c) := by
  by_cases ha : a = 0x00#8
  · simp [ha]
  by_cases hc : c = 0x00#8
  · simp [hc]
  rw [gfMul_comm (gfMul a b) c, gfMul_comm b c, gfMul_eq_iterate c _ hc, gfMul_eq_iterate a _ ha,
    gfMul_eq_iterate a _ ha, gfMul_eq_iterate c _ hc, ← Function.iterate_add_apply, ← Function.iterate_add_apply,
    Nat.add_comm]

theorem gfMul_gfAdd (a b c : Byte) : gfMul a (gfAdd b c) = gfAdd (gfMul a b) (gfMul a c) := by
  by_cases ha : a = 0x00#8
  · simp [ha]
  · simp only [gfMul_eq_iterate a _ ha, gfAdd, iterate_tableStep_xor]

theorem gfAdd_gfMul (a b c : Byte) : gfMul (gfAdd a b) c = gfAdd (gfMul a c) (gfMul b c) := by
  rw [gfMul_comm, gfMul_gfAdd, gfMul_comm c a, gfMul_comm c b]

@[simp] theorem one_gfMul (a : Byte) : gfMul 0x01#8 a = a := by
  rw [gfMul_eq_iterate _ _ (by decide), show (logAt 0x01#8).toNat = 0 by decide +kernel]
  rfl

@[simp] theorem gfMul_one (a : Byte) : gfMul a 0x01#8 = a := by rw [gfMul_comm, one_gfMul]

/-- There are no zero divisors (R102). -/
theorem gfMul_eq_zero (a b : Byte) : gfMul a b = 0x00#8 ↔ a = 0x00#8 ∨ b = 0x00#8 := by
  constructor
  · intro h
    by_cases ha : a = 0x00#8
    · exact .inl ha
    · right
      have := congrArg (gfMul (invAt a)) h
      rwa [← gfMul_assoc, gfMul_comm (invAt a), gfMul_invAt a ha, one_gfMul, gfMul_zero] at this
  · rintro (h | h) <;> simp [h]

theorem gfMul_ne_zero {a b : Byte} (ha : a ≠ 0x00#8) (hb : b ≠ 0x00#8) : gfMul a b ≠ 0x00#8 := by
  rw [Ne, gfMul_eq_zero]
  simp [ha, hb]

/-! ### Inverse and division -/

@[simp] theorem gfInv_zero : gfInv 0x00#8 = none := rfl

theorem gfInv_of_ne_zero {a : Byte} (ha : a ≠ 0x00#8) : gfInv a = some (invAt a) := if_neg ha

@[simp] theorem gfDiv_zero (a : Byte) : gfDiv a 0x00#8 = none := rfl

theorem gfDiv_of_ne_zero (a : Byte) {b : Byte} (hb : b ≠ 0x00#8) : gfDiv a b = some (gfMul a (invAt b)) := by
  by_cases ha : a = 0x00#8
  · rw [gfDiv, if_neg hb, if_pos ha, ha, zero_gfMul]
  · rw [gfDiv, if_neg hb, if_neg ha, gfInv_of_ne_zero hb]
    rfl

@[simp] theorem gfDiv_one (a : Byte) : gfDiv a 0x01#8 = some a := by
  rw [gfDiv_of_ne_zero a (by decide), show invAt 0x01#8 = 0x01#8 by decide +kernel, gfMul_one]

/-- The quotient times the divisor is the dividend (R96). -/
theorem gfMul_invAt_cancel (a : Byte) {b : Byte} (hb : b ≠ 0x00#8) : gfMul (gfMul a (invAt b)) b = a := by
  rw [gfMul_assoc, gfMul_comm (invAt b) b, gfMul_invAt b hb, gfMul_one]

/-! ### Powers -/

@[simp] theorem gfExp_zero (a : Byte) : gfExp a 0 = 0x01#8 := rfl

theorem gfExp_of_ne_zero {a : Byte} (ha : a ≠ 0x00#8) (p : Nat) :
    gfExp a p = tableStep^[(logAt a).toNat * p] 0x01#8 := by
  by_cases hp : p = 0
  · rw [hp]
    rfl
  · have : (logAt a).toNat * p % 255 < 255 := Nat.mod_lt _ (by omega)
    rw [gfExp, if_neg hp, if_neg ha, Config.cycleLen, alogAt_eq_iterate _ (by omega), iterate_mod]

theorem gfExp_succ (a : Byte) (p : Nat) : gfExp a (p + 1) = gfMul (gfExp a p) a := by
  by_cases ha : a = 0x00#8
  · rw [ha, gfMul_zero, gfExp, if_neg (by omega), if_pos rfl]
  · rw [gfMul_comm, gfMul_eq_iterate a _ ha, gfExp_of_ne_zero ha, gfExp_of_ne_zero ha, ← Function.iterate_add_apply,
      Nat.mul_succ, Nat.add_comm]

theorem gfExp_one (a : Byte) : gfExp a 1 = a := by rw [gfExp_succ, gfExp_zero, one_gfMul]

theorem gfExp_add (a : Byte) (p q : Nat) : gfExp a (p + q) = gfMul (gfExp a p) (gfExp a q) := by
  induction q with
  | zero => simp
  | succ q ih => rw [← Nat.add_assoc, gfExp_succ, ih, gfExp_succ, gfMul_assoc]

theorem gfExp_ne_zero {a : Byte} (ha : a ≠ 0x00#8) (p : Nat) : gfExp a p ≠ 0x00#8 := by
  induction p with
  | zero => simp
  | succ p ih => rw [gfExp_succ]; exact gfMul_ne_zero ih ha

/-! ### The field without tables (R103) -/

theorem gfMul_two : ∀ v : Byte, gfMul 0x02#8 v = xtime v := by decide +kernel

theorem gfMul_xtime (a v : Byte) : gfMul a (xtime v) = xtime (gfMul a v) := by
  rw [← gfMul_two, ← gfMul_two, ← gfMul_assoc, gfMul_comm a, gfMul_assoc]

/-- A byte is rebuilt from its upper bits by one doubling and the next lower bit. -/
theorem ushiftRight_eq_xtime : ∀ k, k < 8 → ∀ b : Byte,
    b >>> k = xtime (b >>> (k + 1)) ^^^ (if b.getLsbD k then 0x01#8 else 0x00#8) := by decide +kernel

/-- One round of the loop of R103 moves from the product with `b >>> (k+1)` to the product with `b >>> k`. -/
theorem clmulRound_gfMul (a b : Byte) (k : Nat) (hk : k < 8) :
    clmulRound a b (gfMul a (b >>> (k + 1))) k = gfMul a (b >>> k) := by
  rw [ushiftRight_eq_xtime k hk b]
  change _ = gfMul a (gfAdd _ _)
  rw [gfMul_gfAdd, gfMul_xtime, clmulRound]
  split <;> simp [gfAdd]

/-- The table product is the product of R103. -/
theorem gfMul_eq_clmulMod (a b : Byte) : gfMul a b = clmulMod a b := by
  have h : (0x00#8 : Byte) = gfMul a (b >>> 8) := by
    rw [show b >>> 8 = 0x00#8 by revert b; decide +kernel, gfMul_zero]
  simp only [clmulMod, List.foldl]
  rw [h]
  simp only [clmulRound_gfMul a b 7 (by omega), clmulRound_gfMul a b 6 (by omega), clmulRound_gfMul a b 5 (by omega),
    clmulRound_gfMul a b 4 (by omega), clmulRound_gfMul a b 3 (by omega), clmulRound_gfMul a b 2 (by omega),
    clmulRound_gfMul a b 1 (by omega), clmulRound_gfMul a b 0 (by omega)]
  rw [show b >>> 0 = b from rfl]

/-- gf_exp is the p-fold product (R98). -/
theorem gfExp_eq_clmulPow (a : Byte) (p : Nat) : gfExp a p = clmulPow a p := by
  induction p with
  | zero => rfl
  | succ p ih => rw [gfExp_succ, ih, clmulPow, gfMul_eq_clmulMod]

end Sys2Proof.Machine
end

