-- ==== Sys2Proof/Laws/Seq.lean ====
section
/-! SUPPORT. Sequences of field elements of a fixed length: position-wise addition, scaling, convolution, and the loops
of the polynomial datapath written with them. The proofs about pmul and pdivrem (42_polynomial.md R116, R117) reduce to
these. -/

namespace Sys2Proof.Machine

/-- Position-wise addition. -/
def addSeq (a b : List Byte) : List Byte := List.zipWith gfAdd a b

/-- Every element multiplied by `c`. -/
def scaleSeq (c : Byte) (a : List Byte) : List Byte := a.map (gfMul c)

/-- The convolution of two sequences, of length |a| + |b| - 1. -/
def conv : List Byte → List Byte → List Byte
  | [], b => zeros (b.length - 1)
  | c :: cs, b => addSeq (scaleSeq c b ++ zeros cs.length) (0x00#8 :: conv cs b)

/-! ### Lengths -/

@[simp] theorem length_zeros (k : Nat) : (zeros k).length = k := List.length_replicate

@[simp] theorem zeros_zero : zeros 0 = [] := rfl

theorem zeros_succ (k : Nat) : zeros (k + 1) = 0x00#8 :: zeros k := rfl

theorem zeros_add (j k : Nat) : zeros (j + k) = zeros j ++ zeros k := (List.replicate_append_replicate).symm

theorem zeros_comm (k : Nat) : zeros k ++ [0x00#8] = zeros (k + 1) := by
  rw [zeros_add]
  rfl

@[simp] theorem length_addSeq (a b : List Byte) : (addSeq a b).length = min a.length b.length :=
  List.length_zipWith

@[simp] theorem length_scaleSeq (c : Byte) (a : List Byte) : (scaleSeq c a).length = a.length := List.length_map _

theorem length_conv (a b : List Byte) (hb : 1 ≤ b.length) : (conv a b).length = a.length + b.length - 1 := by
  induction a with
  | nil => simp [conv]
  | cons c cs ih =>
    simp only [conv, length_addSeq, List.length_append, length_scaleSeq, length_zeros, List.length_cons, ih]
    omega

/-! ### Addition -/

@[simp] theorem addSeq_nil (a : List Byte) : addSeq a [] = [] := by simp [addSeq]

@[simp] theorem nil_addSeq (a : List Byte) : addSeq [] a = [] := by simp [addSeq]

@[simp] theorem addSeq_cons (x y : Byte) (a b : List Byte) :
    addSeq (x :: a) (y :: b) = gfAdd x y :: addSeq a b := rfl

theorem addSeq_comm (a b : List Byte) : addSeq a b = addSeq b a := by
  induction a generalizing b with
  | nil => simp
  | cons x a ih =>
    cases b with
    | nil => simp
    | cons y b => simp [gfAdd_comm x y, ih b]

theorem addSeq_assoc (a b c : List Byte) : addSeq (addSeq a b) c = addSeq a (addSeq b c) := by
  induction a generalizing b c with
  | nil => simp
  | cons x a ih =>
    cases b with
    | nil => simp
    | cons y b =>
      cases c with
      | nil => simp
      | cons z c => simp [gfAdd_assoc, ih]

theorem addSeq_left_comm (a b c : List Byte) : addSeq a (addSeq b c) = addSeq b (addSeq a c) := by
  rw [← addSeq_assoc, addSeq_comm a b, addSeq_assoc]

theorem addSeq_zeros (a : List Byte) (k : Nat) (h : a.length = k) : addSeq a (zeros k) = a := by
  induction a generalizing k with
  | nil => simp
  | cons x a ih =>
    subst h
    simp [zeros_succ, ih]

theorem zeros_addSeq (a : List Byte) (k : Nat) (h : a.length = k) : addSeq (zeros k) a = a := by
  rw [addSeq_comm, addSeq_zeros a k h]

theorem addSeq_self (a : List Byte) : addSeq a a = zeros a.length := by
  induction a with
  | nil => rfl
  | cons x a ih => simp [zeros_succ, ih]

theorem addSeq_append (a b c d : List Byte) (h : a.length = b.length) :
    addSeq (a ++ c) (b ++ d) = addSeq a b ++ addSeq c d := List.zipWith_append h

/-- Two sequences of one length are equal when their sum is zero. -/
theorem eq_of_addSeq_eq_zeros (a b : List Byte) (h : a.length = b.length) (hz : addSeq a b = zeros a.length) :
    a = b := by
  have := congrArg (addSeq a) hz
  rw [← addSeq_assoc, addSeq_self, addSeq_zeros a _ rfl, zeros_addSeq b _ h.symm] at this
  exact this.symm

/-! ### Scaling -/

@[simp] theorem scaleSeq_cons (c x : Byte) (a : List Byte) : scaleSeq c (x :: a) = gfMul c x :: scaleSeq c a := rfl

@[simp] theorem scaleSeq_nil (c : Byte) : scaleSeq c [] = [] := rfl

@[simp] theorem scaleSeq_append (c : Byte) (a b : List Byte) :
    scaleSeq c (a ++ b) = scaleSeq c a ++ scaleSeq c b := List.map_append

@[simp] theorem scaleSeq_zeros (c : Byte) (k : Nat) : scaleSeq c (zeros k) = zeros k := by
  simp [scaleSeq, zeros]

theorem zero_scaleSeq (a : List Byte) : scaleSeq 0x00#8 a = zeros a.length := by
  induction a with
  | nil => rfl
  | cons x a ih => simp [zeros_succ, ih]

@[simp] theorem one_scaleSeq (a : List Byte) : scaleSeq 0x01#8 a = a := by
  induction a with
  | nil => rfl
  | cons x a ih => simp [ih]

theorem scaleSeq_addSeq (c : Byte) (a b : List Byte) :
    scaleSeq c (addSeq a b) = addSeq (scaleSeq c a) (scaleSeq c b) := by
  induction a generalizing b with
  | nil => simp
  | cons x a ih =>
    cases b with
    | nil => simp
    | cons y b => simp [gfMul_gfAdd, ih]

theorem scaleSeq_gfAdd (c d : Byte) (a : List Byte) :
    scaleSeq (gfAdd c d) a = addSeq (scaleSeq c a) (scaleSeq d a) := by
  induction a with
  | nil => rfl
  | cons x a ih => simp [gfAdd_gfMul, ih]

theorem scaleSeq_scaleSeq (c d : Byte) (a : List Byte) : scaleSeq c (scaleSeq d a) = scaleSeq (gfMul c d) a := by
  induction a with
  | nil => rfl
  | cons x a ih => simp [gfMul_assoc, ih]

/-! ### Convolution -/

theorem conv_cons (c : Byte) (cs b : List Byte) :
    conv (c :: cs) b = addSeq (scaleSeq c b ++ zeros cs.length) (0x00#8 :: conv cs b) := rfl

theorem conv_zeros_append (j : Nat) (a b : List Byte) (hb : 1 ≤ b.length) :
    conv (zeros j ++ a) b = zeros j ++ conv a b := by
  induction j with
  | zero => simp
  | succ j ih =>
    have hl := length_conv a b hb
    rw [zeros_succ, List.cons_append, conv_cons, ih, zero_scaleSeq, ← zeros_add]
    exact zeros_addSeq _ _ (by simp [hl]; omega)

theorem conv_addSeq (a b c : List Byte) (h : a.length = b.length) :
    conv (addSeq a b) c = addSeq (conv a c) (conv b c) := by
  induction a generalizing b with
  | nil =>
    have : b = [] := List.length_eq_zero_iff.mp h.symm
    subst this
    simp [conv, addSeq_self]
  | cons x a ih =>
    cases b with
    | nil => simp at h
    | cons y b =>
      have hab : a.length = b.length := by simpa using h
      have hl : (addSeq a b).length = a.length := by simp [hab]
      rw [addSeq_cons, conv_cons, conv_cons, conv_cons, ih b hab, scaleSeq_gfAdd, hl, ← hab]
      rw [show zeros a.length = addSeq (zeros a.length) (zeros a.length) by simp [addSeq_self],
        ← addSeq_append _ _ _ _ (by simp), addSeq_self, length_zeros,
        show (0x00#8 :: addSeq (conv a c) (conv b c)) = addSeq (0x00#8 :: conv a c) (0x00#8 :: conv b c) by simp]
      simp only [addSeq_assoc]
      rw [addSeq_left_comm (scaleSeq y c ++ _)]

theorem conv_scaleSeq (k : Byte) (a b : List Byte) : conv (scaleSeq k a) b = scaleSeq k (conv a b) := by
  induction a with
  | nil => simp [conv]
  | cons x a ih => simp [conv_cons, ih, scaleSeq_addSeq, scaleSeq_scaleSeq]

/-- A trailing zero of the left operand is a trailing zero of the product. -/
theorem conv_append_zeros (a b : List Byte) (k : Nat) (ha : 1 ≤ a.length) (hb : 1 ≤ b.length) :
    conv (a ++ zeros k) b = conv a b ++ zeros k := by
  induction a with
  | nil => simp at ha
  | cons x a ih =>
    rw [List.cons_append, conv_cons, conv_cons]
    cases a with
    | nil =>
      have h := conv_zeros_append k [] b hb
      simp only [List.append_nil] at h
      rw [List.nil_append, h]
      simp only [conv, List.length_nil, zeros_zero, List.append_nil, length_zeros]
      rw [← zeros_succ, ← zeros_add, ← zeros_succ, addSeq_zeros, addSeq_zeros]
      · simp; omega
      · simp; omega
    | cons y a =>
      have hl := length_conv (y :: a) b hb
      rw [ih (by simp), ← List.cons_append, List.length_append, length_zeros, zeros_add, ← List.append_assoc,
        addSeq_append, addSeq_self, length_zeros]
      simp [hl]
      omega

theorem conv_nil_right_cons (a : List Byte) (d : Byte) : conv a [d] = scaleSeq d a := by
  induction a with
  | nil => rfl
  | cons x a ih =>
    rw [conv_cons, ih]
    simp only [scaleSeq_cons, scaleSeq_nil, List.cons_append, List.nil_append, addSeq_cons, gfAdd_zero, gfMul_comm x d]
    rw [zeros_addSeq]
    simp

/-- Convolution unrolled on its right operand. -/
theorem conv_cons_right (a ds : List Byte) (d : Byte) (hds : 1 ≤ ds.length) :
    conv a (d :: ds) = addSeq (scaleSeq d a ++ zeros ds.length) (0x00#8 :: conv a ds) := by
  induction a with
  | nil =>
    simp only [conv, scaleSeq_nil, List.nil_append, ← zeros_succ, List.length_cons]
    rw [show ds.length - 1 + 1 = ds.length by omega, addSeq_self]
    simp
  | cons x a ih =>
    have hl := length_conv a ds hds
    rw [conv_cons, ih, conv_cons]
    simp only [scaleSeq_cons, List.cons_append, addSeq_cons, gfAdd_zero, gfMul_comm x d]
    congr 1
    rw [addSeq_left_comm]

theorem conv_comm (a b : List Byte) (ha : 1 ≤ a.length) (hb : 1 ≤ b.length) : conv a b = conv b a := by
  induction a generalizing b with
  | nil => simp at ha
  | cons x a ih =>
    cases a with
    | nil =>
      rw [conv_nil_right_cons, conv_cons]
      simp only [conv, List.length_nil, zeros_zero, List.append_nil]
      rw [← zeros_succ, addSeq_zeros]
      simp
      omega
    | cons y a => rw [conv_cons, conv_cons_right b (y :: a) x (by simp), ih b (by simp) hb]

theorem conv_assoc (a b c : List Byte) (ha : 1 ≤ a.length) (hb : 1 ≤ b.length) (hc : 1 ≤ c.length) :
    conv (conv a b) c = conv a (conv b c) := by
  induction a with
  | nil => simp at ha
  | cons x a ih =>
    have hbc := length_conv b c hc
    cases a with
    | nil =>
      rw [conv_comm [x] b (by simp) hb, conv_nil_right_cons, conv_scaleSeq, conv_comm [x] _ (by simp) (by omega),
        conv_nil_right_cons]
    | cons y a =>
      have hl := length_conv (y :: a) b hb
      simp only [List.length_cons] at hl
      rw [conv_cons, conv_addSeq _ _ _ (by simp [hl]; omega),
        conv_append_zeros _ _ _ (by simpa using hb) hc, conv_scaleSeq,
        show (0x00#8 :: conv (y :: a) b) = zeros 1 ++ conv (y :: a) b from rfl, conv_zeros_append _ _ _ hc,
        ih (by simp), conv_cons x (y :: a)]
      rfl

/-! ### The loops of the datapath -/

theorem mulRow_eq (c : Byte) (b buf : List Byte) (h : b.length ≤ buf.length) :
    mulRow c b buf = addSeq buf (scaleSeq c b ++ zeros (buf.length - b.length)) := by
  induction b generalizing buf with
  | nil => simp [mulRow, addSeq_zeros]
  | cons y b ih =>
    cases buf with
    | nil => simp at h
    | cons z buf =>
      rw [mulRow, ih buf (by simpa using h)]
      simp only [scaleSeq_cons, List.cons_append, addSeq_cons, List.length_cons, Nat.add_sub_add_right]
      congr 1
      split
      · next hz => rw [(gfMul_eq_zero c y).mpr hz, gfAdd_zero]
      · rfl

theorem subRow_eq (c : Byte) (d buf : List Byte) (h : d.length ≤ buf.length) :
    subRow c d buf = addSeq buf (scaleSeq c d ++ zeros (buf.length - d.length)) := by
  induction d generalizing buf with
  | nil => simp [subRow, addSeq_zeros]
  | cons y d ih =>
    cases buf with
    | nil => simp at h
    | cons z buf =>
      rw [subRow, ih buf (by simpa using h)]
      simp only [scaleSeq_cons, List.cons_append, addSeq_cons, List.length_cons, Nat.add_sub_add_right, gfSub_eq_gfAdd]

/-- The double loop of R116 adds the convolution to its buffer. -/
theorem convolve_eq (a b buf : List Byte) (hb : 1 ≤ b.length) (h : buf.length + 1 = a.length + b.length) :
    convolve a b buf = addSeq buf (conv a b) := by
  induction a generalizing buf with
  | nil =>
    rw [convolve, conv, addSeq_zeros]
    simp at h
    omega
  | cons c cs ih =>
    have hlen : buf.length - b.length = cs.length := by simp at h; omega
    rw [convolve, mulRow_eq c b buf (by simp at h; omega), hlen, conv_cons, ← addSeq_assoc]
    generalize hw : addSeq buf (scaleSeq c b ++ zeros cs.length) = w
    have hwl : w.length = buf.length := by
      rw [← hw]
      simp at h ⊢
      omega
    cases w with
    | nil =>
      simp at hwl h
      omega
    | cons z zs =>
      simp only [addSeq_cons, gfAdd_zero]
      rw [ih zs (by simp at hwl h; omega)]

theorem convolve_zeros (a b : List Byte) (ha : 1 ≤ a.length) (hb : 1 ≤ b.length) :
    convolve a b (zeros (a.length + b.length - 1)) = conv a b := by
  rw [convolve_eq a b _ hb (by simp; omega), zeros_addSeq _ _ (length_conv a b hb)]

/-- The step of the division buffer, with the case c = 0 folded in. -/
theorem divStep_eq (c : Byte) (ds buf : List Byte) (h : ds.length ≤ buf.length) :
    (if c = 0x00#8 then buf else subRow c ds buf)
      = addSeq buf (scaleSeq c ds ++ zeros (buf.length - ds.length)) := by
  split
  · next hc =>
    rw [hc, zero_scaleSeq, ← zeros_add, addSeq_zeros]
    omega
  · exact subRow_eq c ds buf h

end Sys2Proof.Machine
end

