-- ==== Sys2Proof/Laws/Poly.lean ====
section
/-! SUPPORT. One specification for each function of the polynomial datapath: pnorm, padd, pmul, peval, pdivrem
(42_polynomial.md R110 to R117). -/

namespace Sys2Proof.Machine

/-! ### Construction -/

@[simp] theorem pnorm_nil : pnorm [] = zeroPoly := rfl

@[simp] theorem pnorm_zero_cons (s : List Byte) : pnorm (0x00#8 :: s) = pnorm s := by rw [pnorm, if_pos rfl]

theorem pnorm_of_head_ne_zero {c : Byte} (cs : List Byte) (hc : c ≠ 0x00#8) : pnorm (c :: cs) = c :: cs := by
  rw [pnorm, if_neg hc]

@[simp] theorem pnorm_zeroPoly : pnorm zeroPoly = zeroPoly := rfl

/-- What construction answers is a polynomial value (R110). -/
theorem pnorm_normalised (s : List Byte) : Normalised (pnorm s) := by
  induction s with
  | nil => exact .inl rfl
  | cons c cs ih =>
    by_cases hc : c = 0x00#8
    · rwa [hc, pnorm_zero_cons]
    · exact .inr ⟨c, cs, pnorm_of_head_ne_zero cs hc, hc⟩

theorem pnorm_eq_self {p : List Byte} (h : Normalised p) : pnorm p = p := by
  rcases h with rfl | ⟨c, cs, rfl, hc⟩
  · rfl
  · exact pnorm_of_head_ne_zero cs hc

@[simp] theorem pnorm_pnorm (s : List Byte) : pnorm (pnorm s) = pnorm s := pnorm_eq_self (pnorm_normalised s)

theorem Normalised.length_pos {p : List Byte} (h : Normalised p) : 1 ≤ p.length := by
  rcases h with rfl | ⟨c, cs, rfl, -⟩ <;> simp [zeroPoly]

theorem length_pnorm_pos (s : List Byte) : 1 ≤ (pnorm s).length := (pnorm_normalised s).length_pos

@[simp] theorem pnorm_zeros_append (k : Nat) (s : List Byte) : pnorm (zeros k ++ s) = pnorm s := by
  induction k with
  | zero => rfl
  | succ k ih => rw [zeros_succ, List.cons_append, pnorm_zero_cons, ih]

@[simp] theorem pnorm_zeros (k : Nat) : pnorm (zeros k) = zeroPoly := by
  rw [← List.append_nil (zeros k), pnorm_zeros_append]
  rfl

/-- A non-empty sequence is its normal form with zeros in front. -/
theorem zeros_append_pnorm (s : List Byte) (hs : 1 ≤ s.length) :
    (pnorm s).length ≤ s.length ∧ zeros (s.length - (pnorm s).length) ++ pnorm s = s := by
  induction s with
  | nil => simp at hs
  | cons c cs ih =>
    by_cases hc : c = 0x00#8
    · subst hc
      rw [pnorm_zero_cons]
      cases cs with
      | nil => simp [zeroPoly]
      | cons d ds =>
        obtain ⟨hle, heq⟩ := ih (by simp)
        refine ⟨by simp only [List.length_cons] at hle ⊢; omega, ?_⟩
        rw [show ((0x00#8 :: d :: ds).length - (pnorm (d :: ds)).length)
            = ((d :: ds).length - (pnorm (d :: ds)).length) + 1 by simp only [List.length_cons] at hle ⊢; omega,
          zeros_succ, List.cons_append, heq]
    · simp [pnorm_of_head_ne_zero cs hc]

theorem length_pnorm_le (s : List Byte) (hs : 1 ≤ s.length) : (pnorm s).length ≤ s.length :=
  (zeros_append_pnorm s hs).1

/-- A sequence denotes zero exactly when every element is zero. -/
theorem pnorm_eq_zeroPoly (s : List Byte) : pnorm s = zeroPoly ↔ s = zeros s.length := by
  constructor
  · intro h
    cases s with
    | nil => rfl
    | cons c cs =>
      have := (zeros_append_pnorm (c :: cs) (by simp)).2
      rw [h] at this
      rw [← this, show zeroPoly = zeros 1 from rfl, ← zeros_add]
      simp
  · intro h
    rw [h, pnorm_zeros]

/-- Two sequences of one length denote the same polynomial only if they are equal. -/
theorem eq_of_pnorm_eq (a b : List Byte) (hl : a.length = b.length) (h : pnorm a = pnorm b) : a = b := by
  cases a with
  | nil => exact (List.length_eq_zero_iff.mp hl.symm).symm
  | cons c cs =>
    rw [← (zeros_append_pnorm (c :: cs) (by simp)).2, ← (zeros_append_pnorm b (by rw [← hl]; simp)).2, h, hl]

theorem length_padTo (len : Nat) (p : List Byte) (h : p.length ≤ len) : (padTo len p).length = len := by
  simp [padTo]
  omega

theorem padTo_self (p : List Byte) : padTo p.length p = p := by simp [padTo]

@[simp] theorem pnorm_padTo (len : Nat) (p : List Byte) : pnorm (padTo len p) = pnorm p := pnorm_zeros_append _ p

theorem padTo_add (j len : Nat) (p : List Byte) (h : p.length ≤ len) :
    padTo (j + len) p = zeros j ++ padTo len p := by
  rw [padTo, padTo, ← List.append_assoc, ← zeros_add]
  congr 2
  omega

theorem padTo_pnorm (len : Nat) (s : List Byte) (h : s.length ≤ len) (hl : 1 ≤ len) :
    padTo len (pnorm s) = padTo len s := by
  cases s with
  | nil =>
    rw [pnorm_nil, padTo, padTo, show zeroPoly = zeros 1 from rfl, ← zeros_add, length_zeros, List.length_nil,
      List.append_nil]
    congr 1
    omega
  | cons c cs =>
    obtain ⟨hle, heq⟩ := zeros_append_pnorm (c :: cs) (by simp)
    conv_rhs => rw [padTo, ← heq, ← List.append_assoc, ← zeros_add]
    rw [padTo, heq]
    congr 2
    omega

/-! ### Addition -/

/-- Addition may be done at any length that holds both operands (R113). -/
theorem padd_eq (a b : List Byte) (len : Nat) (ha : a.length ≤ len) (hb : b.length ≤ len) (hl : 1 ≤ len) :
    padd a b = pnorm (addSeq (padTo len a) (padTo len b)) := by
  have hna : (pnorm a).length ≤ len := by
    cases a with
    | nil => simpa [zeroPoly] using hl
    | cons c cs => exact le_trans (length_pnorm_le _ (by simp)) ha
  have hnb : (pnorm b).length ≤ len := by
    cases b with
    | nil => simpa [zeroPoly] using hl
    | cons c cs => exact le_trans (length_pnorm_le _ (by simp)) hb
  rw [← padTo_pnorm len a ha hl, ← padTo_pnorm len b hb hl, padd]
  generalize hm : max (pnorm a).length (pnorm b).length = m
  have h1 : (pnorm a).length ≤ m := by omega
  have h2 : (pnorm b).length ≤ m := by omega
  obtain ⟨j, rfl⟩ : ∃ j, len = j + m := ⟨len - m, by omega⟩
  rw [padTo_add _ _ _ h1, padTo_add _ _ _ h2, addSeq_append _ _ _ _ (by simp), addSeq_self, length_zeros,
    pnorm_zeros_append]
  rfl

theorem padd_of_length_eq (a b : List Byte) (h : a.length = b.length) (ha : 1 ≤ a.length) :
    padd a b = pnorm (addSeq a b) := by
  rw [padd_eq a b a.length le_rfl (by omega) ha, padTo_self, h, padTo_self]

@[simp] theorem padd_pnorm_left (a b : List Byte) : padd (pnorm a) b = padd a b := by simp [padd]

@[simp] theorem padd_pnorm_right (a b : List Byte) : padd a (pnorm b) = padd a b := by simp [padd]

theorem padd_normalised (a b : List Byte) : Normalised (padd a b) := pnorm_normalised _

theorem padd_comm (a b : List Byte) : padd a b = padd b a := by
  have h1 : a.length ≤ max (max a.length b.length) 1 := by omega
  have h2 : b.length ≤ max (max a.length b.length) 1 := by omega
  rw [padd_eq a b _ h1 h2 (by omega), padd_eq b a _ h2 h1 (by omega), addSeq_comm]

@[simp] theorem padd_self (a : List Byte) : padd a a = zeroPoly := by
  rw [padd_eq a a _ (le_max_left _ 1) (le_max_left _ 1) (le_max_right _ _), addSeq_self, pnorm_zeros]

theorem padd_zeroPoly (a : List Byte) : padd a zeroPoly = pnorm a := by
  rw [padd_eq a zeroPoly (max a.length 1) (by omega) (by simp [zeroPoly]) (by omega),
    show padTo (max a.length 1) zeroPoly = zeros (max a.length 1) by
      rw [padTo, show zeroPoly = zeros 1 from rfl, ← zeros_add]; congr 1; simp,
    addSeq_zeros _ _ (length_padTo _ _ (by omega)), pnorm_padTo]

/-! ### Evaluation -/

theorem peval_foldl (p : List Byte) (x acc : Byte) :
    p.foldl (fun acc c => gfAdd c (gfMul acc x)) acc = gfAdd (gfMul acc (gfExp x p.length)) (peval p x) := by
  induction p generalizing acc with
  | nil => simp [peval]
  | cons c cs ih =>
    rw [peval, List.foldl_cons, List.foldl_cons, ih, ih (gfAdd c (gfMul 0x00#8 x)), List.length_cons, gfExp_succ]
    simp only [zero_gfMul, gfAdd_zero, gfAdd_gfMul]
    rw [gfMul_assoc, gfMul_comm x, gfAdd_comm (gfMul c _), gfAdd_assoc]

@[simp] theorem peval_nil (x : Byte) : peval [] x = 0x00#8 := rfl

/-- Horner's method computes the value: the first coefficient stands at the highest power (R7, R115). -/
theorem peval_cons (c : Byte) (cs : List Byte) (x : Byte) :
    peval (c :: cs) x = gfAdd (gfMul c (gfExp x cs.length)) (peval cs x) := by
  rw [peval, List.foldl_cons, peval_foldl]
  simp

theorem peval_append (p q : List Byte) (x : Byte) :
    peval (p ++ q) x = gfAdd (gfMul (peval p x) (gfExp x q.length)) (peval q x) := by
  rw [peval, List.foldl_append, peval_foldl]
  rfl

@[simp] theorem peval_zeros (k : Nat) (x : Byte) : peval (zeros k) x = 0x00#8 := by
  induction k with
  | zero => rfl
  | succ k ih => rw [zeros_succ, peval_cons, ih]; simp

@[simp] theorem peval_pnorm (p : List Byte) (x : Byte) : peval (pnorm p) x = peval p x := by
  induction p with
  | nil => simp [zeroPoly, peval_cons]
  | cons c cs ih =>
    by_cases hc : c = 0x00#8
    · rw [hc, pnorm_zero_cons, ih, peval_cons]
      simp
    · rw [pnorm_of_head_ne_zero cs hc]

theorem peval_addSeq (a b : List Byte) (x : Byte) (h : a.length = b.length) :
    peval (addSeq a b) x = gfAdd (peval a x) (peval b x) := by
  induction a generalizing b with
  | nil =>
    have : b = [] := List.length_eq_zero_iff.mp h.symm
    simp [this]
  | cons c a ih =>
    cases b with
    | nil => simp at h
    | cons d b =>
      have hab : a.length = b.length := by simpa using h
      rw [addSeq_cons, peval_cons, peval_cons, peval_cons, ih b hab, gfAdd_gfMul]
      have hl : (addSeq a b).length = a.length := by simp [hab]
      rw [hl, hab]
      simp only [gfAdd]
      ac_rfl

theorem peval_scaleSeq (c : Byte) (a : List Byte) (x : Byte) : peval (scaleSeq c a) x = gfMul c (peval a x) := by
  induction a with
  | nil => simp
  | cons d a ih => simp [peval_cons, ih, gfMul_gfAdd, gfMul_assoc]

theorem peval_conv (a b : List Byte) (x : Byte) (hb : 1 ≤ b.length) :
    peval (conv a b) x = gfMul (peval a x) (peval b x) := by
  induction a with
  | nil => simp [conv]
  | cons c a ih =>
    have hl := length_conv a b hb
    rw [conv_cons, peval_addSeq _ _ _ (by simp [hl]; omega), peval_append, peval_zeros, peval_scaleSeq, peval_cons,
      peval_cons, ih, length_zeros, gfAdd_gfMul, zero_gfMul, zero_gfAdd, gfAdd_zero, gfMul_assoc, gfMul_assoc,
      gfMul_comm (peval b x)]

theorem peval_padd (a b : List Byte) (x : Byte) : peval (padd a b) x = gfAdd (peval a x) (peval b x) := by
  have h1 : a.length ≤ max (max a.length b.length) 1 := by omega
  have h2 : b.length ≤ max (max a.length b.length) 1 := by omega
  rw [padd_eq a b _ h1 h2 (by omega), peval_pnorm,
    peval_addSeq _ _ _ (by rw [length_padTo _ _ h1, length_padTo _ _ h2])]
  simp [padTo, peval_append]

/-! ### Multiplication -/

theorem normalised_head {p : List Byte} (h : Normalised p) (hz : p ≠ zeroPoly) :
    ∃ c cs, p = c :: cs ∧ c ≠ 0x00#8 := h.resolve_left hz

theorem conv_cons_cons (x y : Byte) (as bs : List Byte) :
    ∃ t, conv (x :: as) (y :: bs) = gfMul x y :: t := by
  simp [conv_cons]

/-- The product is the convolution, normalised (R116). -/
theorem pmul_eq_conv (a b : List Byte) (ha : 1 ≤ a.length) (hb : 1 ≤ b.length) :
    pmul a b = pnorm (conv a b) := by
  have hna := length_pnorm_pos a
  have hnb := length_pnorm_pos b
  have key : pnorm (conv (pnorm a) (pnorm b)) = pnorm (conv a b) := by
    conv_rhs => rw [← (zeros_append_pnorm a ha).2, ← (zeros_append_pnorm b hb).2]
    rw [conv_zeros_append _ _ _ (by rw [List.length_append]; omega), pnorm_zeros_append,
      conv_comm _ (_ ++ _) hna (by rw [List.length_append]; omega), conv_zeros_append _ _ _ hna, pnorm_zeros_append,
      conv_comm _ _ hna hnb]
  rw [← key, pmul]
  by_cases h1 : pnorm a = zeroPoly
  · simp only [h1, true_or, if_true]
    rw [show zeroPoly = zeros 1 ++ [] from rfl, conv_zeros_append _ _ _ hnb]
    rw [conv, ← zeros_add, pnorm_zeros]
    rfl
  by_cases h2 : pnorm b = zeroPoly
  · simp only [h2, or_true, if_true]
    rw [show zeroPoly = [0x00#8] from rfl, conv_nil_right_cons, zero_scaleSeq, pnorm_zeros]
    rfl
  · simp only [h1, h2, or_self, if_false]
    rw [convolve_zeros _ _ hna hnb]
    obtain ⟨x, as, hxa, hx⟩ := normalised_head (pnorm_normalised a) h1
    obtain ⟨y, bs, hyb, hy⟩ := normalised_head (pnorm_normalised b) h2
    obtain ⟨t, ht⟩ := conv_cons_cons x y as bs
    rw [hxa, hyb, ht, pnorm_of_head_ne_zero _ (gfMul_ne_zero hx hy)]

@[simp] theorem pmul_pnorm_left (a b : List Byte) : pmul (pnorm a) b = pmul a b := by simp [pmul]

@[simp] theorem pmul_pnorm_right (a b : List Byte) : pmul a (pnorm b) = pmul a b := by simp [pmul]

theorem pmul_normalised (a b : List Byte) : Normalised (pmul a b) := by
  rw [← pmul_pnorm_left, ← pmul_pnorm_right, pmul_eq_conv _ _ (length_pnorm_pos a) (length_pnorm_pos b)]
  exact pnorm_normalised _

theorem peval_pmul (a b : List Byte) (x : Byte) : peval (pmul a b) x = gfMul (peval a x) (peval b x) := by
  rw [← pmul_pnorm_left, ← pmul_pnorm_right, pmul_eq_conv _ _ (length_pnorm_pos a) (length_pnorm_pos b), peval_pnorm,
    peval_conv _ _ _ (length_pnorm_pos b), peval_pnorm, peval_pnorm]

/-- The product of two nonzero normalised polynomials is their convolution as it stands. -/
theorem pmul_of_heads (x y : Byte) (as bs : List Byte) (hx : x ≠ 0x00#8) (hy : y ≠ 0x00#8) :
    pmul (x :: as) (y :: bs) = conv (x :: as) (y :: bs) := by
  obtain ⟨t, ht⟩ := conv_cons_cons x y as bs
  rw [pmul_eq_conv _ _ (by simp) (by simp), ht, pnorm_of_head_ne_zero _ (gfMul_ne_zero hx hy)]

/-! ### Division -/

/-- Everything the division loop does (R117): it finds `n` quotient coefficients and leaves as many buffer bytes as the
divisor's tail has, and the buffer is the product of quotient and divisor plus what is left. -/
theorem divLoop_spec (d0 : Byte) (ds : List Byte) (hd : d0 ≠ 0x00#8) (n : Nat) (buf : List Byte)
    (h : buf.length = n + ds.length) :
    ∃ q r, divLoop d0 ds n buf = some (q, r) ∧ q.length = n ∧ r.length = ds.length ∧
      buf = addSeq (conv q (d0 :: ds)) (zeros n ++ r) := by
  induction n generalizing buf with
  | zero =>
    refine ⟨[], buf, rfl, rfl, by omega, ?_⟩
    simp only [conv, zeros_zero, List.nil_append, List.length_cons, Nat.add_sub_cancel]
    rw [zeros_addSeq _ _ (by omega)]
  | succ n ih =>
    cases buf with
    | nil => simp only [List.length_nil] at h; omega
    | cons x rest =>
      have hr : rest.length = n + ds.length := by simp at h; omega
      rw [divLoop, gfDiv_of_ne_zero x hd]
      simp only []
      generalize hc : gfMul x (invAt d0) = c
      have hx : x = gfMul c d0 := by rw [← hc, gfMul_invAt_cancel x hd]
      rw [divStep_eq c ds rest (by omega), hr, Nat.add_sub_cancel]
      generalize hbuf : addSeq rest (scaleSeq c ds ++ zeros n) = buf'
      have hb' : buf'.length = n + ds.length := by
        rw [← hbuf]
        simp
        omega
      obtain ⟨q, r, hq, hql, hrl, heq⟩ := ih buf' hb'
      refine ⟨c :: q, r, by rw [hq], by simp [hql], hrl, ?_⟩
      have hrest : rest = addSeq (scaleSeq c ds ++ zeros n) buf' := by
        rw [← hbuf, addSeq_left_comm, addSeq_self, addSeq_zeros]
        simp
        omega
      rw [conv_cons, hql, zeros_succ, scaleSeq_cons, List.cons_append, List.cons_append, addSeq_cons, addSeq_cons,
        gfAdd_zero, gfAdd_zero, ← hx, addSeq_assoc, ← heq, ← hrest]

end Sys2Proof.Machine
end

