-- ==== Sys2Proof/Laws/Division.lean ====
section
/-! SUPPORT. The ring laws of padd and pmul on polynomial values (42_polynomial.md R113, R116), and division with
remainder: it exists, and a product divided by its factor leaves no remainder (R117). -/

namespace Sys2Proof.Machine

/-! ### Ring laws -/

theorem padTo_of_length_eq (len : Nat) (p : List Byte) (h : p.length = len) : padTo len p = p := by
  rw [← h, padTo_self]

theorem padd_assoc (a b c : List Byte) : padd (padd a b) c = padd a (padd b c) := by
  generalize hL : max (max a.length b.length) (max c.length 1) = len
  have ha : a.length ≤ len := by omega
  have hb : b.length ≤ len := by omega
  have hc : c.length ≤ len := by omega
  have hl : 1 ≤ len := by omega
  have la := length_padTo len a ha
  have lb := length_padTo len b hb
  have lc := length_padTo len c hc
  rw [padd_eq a b len ha hb hl, padd_eq b c len hb hc hl, padd_pnorm_left, padd_pnorm_right,
    padd_eq _ c len (by simp [la, lb]) hc hl, padd_eq a _ len ha (by simp [lb, lc]) hl]
  rw [padTo_of_length_eq len (addSeq (padTo len a) (padTo len b)) (by simp [la, lb]),
    padTo_of_length_eq len (addSeq (padTo len b) (padTo len c)) (by simp [lb, lc]), addSeq_assoc]

theorem zeroPoly_padd (a : List Byte) : padd zeroPoly a = pnorm a := by rw [padd_comm, padd_zeroPoly]

theorem pnorm_padd (a b : List Byte) : pnorm (padd a b) = padd a b := pnorm_eq_self (padd_normalised a b)

theorem pnorm_pmul (a b : List Byte) : pnorm (pmul a b) = pmul a b := pnorm_eq_self (pmul_normalised a b)

/-- In characteristic 2 a summand is cancelled by adding it again. -/
theorem padd_padd_cancel (a b : List Byte) : padd (padd a b) b = pnorm a := by
  rw [padd_assoc, padd_self, padd_zeroPoly]

theorem padd_eq_zeroPoly {a b : List Byte} (h : padd a b = zeroPoly) : pnorm a = pnorm b := by
  rw [← padd_padd_cancel a b, h, zeroPoly_padd]

theorem pmul_comm (a b : List Byte) : pmul a b = pmul b a := by
  rw [← pmul_pnorm_left, ← pmul_pnorm_right, ← pmul_pnorm_left b, ← pmul_pnorm_right _ a,
    pmul_eq_conv _ _ (length_pnorm_pos a) (length_pnorm_pos b), pmul_eq_conv _ _ (length_pnorm_pos b) (length_pnorm_pos a),
    conv_comm _ _ (length_pnorm_pos a) (length_pnorm_pos b)]

theorem pmul_assoc (a b c : List Byte) : pmul (pmul a b) c = pmul a (pmul b c) := by
  have key : ∀ a b c : List Byte, 1 ≤ a.length → 1 ≤ b.length → 1 ≤ c.length →
      pmul (pmul a b) c = pmul a (pmul b c) := by
    intro a b c ha hb hc
    have h1 := length_conv a b hb
    have h2 := length_conv b c hc
    rw [pmul_eq_conv _ _ ha hb, pmul_eq_conv _ _ hb hc, pmul_pnorm_left, pmul_pnorm_right,
      pmul_eq_conv _ _ (by omega) hc, pmul_eq_conv _ _ ha (by omega), conv_assoc _ _ _ ha hb hc]
  have := key (pnorm a) (pnorm b) (pnorm c) (length_pnorm_pos a) (length_pnorm_pos b) (length_pnorm_pos c)
  simpa only [pmul_pnorm_left, pmul_pnorm_right] using this

@[simp] theorem zeroPoly_pmul (a : List Byte) : pmul zeroPoly a = zeroPoly := by simp [pmul]

@[simp] theorem pmul_zeroPoly (a : List Byte) : pmul a zeroPoly = zeroPoly := by simp [pmul]

theorem pmul_one (a : List Byte) : pmul a [0x01#8] = pnorm a := by
  rw [← pmul_pnorm_left, pmul_eq_conv _ _ (length_pnorm_pos a) (by simp), conv_nil_right_cons, one_scaleSeq, pnorm_pnorm]

theorem padd_pmul (a b c : List Byte) : pmul (padd a b) c = padd (pmul a c) (pmul b c) := by
  generalize hL : max (max a.length b.length) 1 = len
  have ha : a.length ≤ len := by omega
  have hb : b.length ≤ len := by omega
  have hl : 1 ≤ len := by omega
  have la := length_padTo len a ha
  have lb := length_padTo len b hb
  have hc := length_pnorm_pos c
  have l1 := length_conv (padTo len a) (pnorm c) hc
  have l2 := length_conv (padTo len b) (pnorm c) hc
  rw [padd_eq a b len ha hb hl, pmul_pnorm_left, ← pmul_pnorm_right, pmul_eq_conv _ _ (by simp [la, lb]; omega) hc,
    conv_addSeq _ _ _ (by rw [la, lb]), ← padd_of_length_eq _ _ (by omega) (by omega), ← padd_pnorm_left,
    ← padd_pnorm_right, ← pmul_eq_conv _ _ (by omega) hc, ← pmul_eq_conv _ _ (by omega) hc, pmul_pnorm_right,
    pmul_pnorm_right, ← pmul_pnorm_left (padTo len a), ← pmul_pnorm_left (padTo len b), pnorm_padTo, pnorm_padTo,
    pmul_pnorm_left, pmul_pnorm_left]

/-- Zeros behind a sequence multiply it by a power of x. -/
theorem pmul_monomial (a : List Byte) (k : Nat) : pmul a (0x01#8 :: zeros k) = pnorm (a ++ zeros k) := by
  have key : ∀ s : List Byte, 1 ≤ s.length → pmul s (0x01#8 :: zeros k) = pnorm (s ++ zeros k) := by
    intro s hs
    rw [pmul_comm, pmul_eq_conv _ _ (by simp) hs, show (0x01#8 :: zeros k) = [0x01#8] ++ zeros k from rfl,
      conv_append_zeros _ _ _ (by simp) hs, conv_comm _ _ (by simp) hs, conv_nil_right_cons, one_scaleSeq]
  cases a with
  | nil =>
    rw [← pmul_pnorm_left, pnorm_nil, zeroPoly_pmul, List.nil_append, pnorm_zeros]
  | cons c cs => exact key _ (by simp)

theorem length_pmul {a b : List Byte} (ha : pnorm a ≠ zeroPoly) (hb : pnorm b ≠ zeroPoly) :
    (pmul a b).length = (pnorm a).length + (pnorm b).length - 1 := by
  obtain ⟨x, as, hxa, hx⟩ := normalised_head (pnorm_normalised a) ha
  obtain ⟨y, bs, hyb, hy⟩ := normalised_head (pnorm_normalised b) hb
  rw [← pmul_pnorm_left, ← pmul_pnorm_right, hxa, hyb, pmul_of_heads x y as bs hx hy, length_conv _ _ (by simp)]

theorem pmul_ne_zeroPoly {a b : List Byte} (ha : pnorm a ≠ zeroPoly) (hb : pnorm b ≠ zeroPoly) :
    pmul a b ≠ zeroPoly := by
  obtain ⟨x, as, hxa, hx⟩ := normalised_head (pnorm_normalised a) ha
  obtain ⟨y, bs, hyb, hy⟩ := normalised_head (pnorm_normalised b) hb
  obtain ⟨t, ht⟩ := conv_cons_cons x y as bs
  rw [← pmul_pnorm_left, ← pmul_pnorm_right, hxa, hyb, pmul_of_heads x y as bs hx hy, ht]
  intro h
  exact gfMul_ne_zero hx hy (List.cons.inj h).1

/-! ### Division -/

/-- A divisor that does not denote zero divides everything: the quotient and the remainder are polynomial values, the
remainder is zero or shorter than the divisor, and together they give back the dividend (R117). -/
theorem pdivrem_spec (a d : List Byte) (hd : pnorm d ≠ zeroPoly) :
    ∃ q r, pdivrem a d = some (q, r) ∧ Normalised q ∧ Normalised r ∧ padd (pmul q d) r = pnorm a ∧
      (r = zeroPoly ∨ r.length < (pnorm d).length) := by
  obtain ⟨d0, ds, hdd, hd0⟩ := normalised_head (pnorm_normalised d) hd
  by_cases hlt : (pnorm a).length < ds.length + 1
  · refine ⟨zeroPoly, pnorm a, ?_, .inl rfl, pnorm_normalised a, ?_, ?_⟩
    · simp only [pdivrem, hdd, hd0, hlt, if_false, if_true]
    · rw [zeroPoly_pmul, zeroPoly_padd, pnorm_pnorm]
    · exact .inr (by simpa [hdd] using hlt)
  · have hbuf : (pnorm a).length = ((pnorm a).length - ds.length) + ds.length := by omega
    obtain ⟨q, r, hqr, hql, hrl, heq⟩ := divLoop_spec d0 ds hd0 _ _ hbuf
    refine ⟨pnorm q, pnorm r, ?_, pnorm_normalised q, pnorm_normalised r, ?_, ?_⟩
    · simp only [pdivrem, hdd, hd0, hlt, if_false, hqr]
    · have hcl := length_conv q (d0 :: ds) (by simp)
      simp only [List.length_cons] at hcl
      rw [pmul_pnorm_left, padd_pnorm_right, ← pmul_pnorm_right, hdd, pmul_eq_conv _ _ (by omega) (by simp),
        padd_pnorm_left, padd_eq _ r (pnorm a).length (by omega) (by omega) (by omega)]
      have e1 : padTo (pnorm a).length (conv q (d0 :: ds)) = conv q (d0 :: ds) := by
        rw [padTo, hcl, show (pnorm a).length - (q.length + (ds.length + 1) - 1) = 0 by omega]
        rfl
      have e2 : padTo (pnorm a).length r = zeros ((pnorm a).length - ds.length) ++ r := by rw [padTo, hrl]
      rw [e1, e2, ← heq, pnorm_pnorm]
    · cases r with
      | nil => exact .inl rfl
      | cons x xs =>
        have := length_pnorm_le (x :: xs) (by simp)
        exact .inr (by rw [hdd, List.length_cons]; omega)

/-- Quotient and remainder are the only pair that R117 allows. -/
theorem pdivrem_unique (a d q r : List Byte) (hd : pnorm d ≠ zeroPoly) (hq : Normalised q) (hr : Normalised r)
    (h : padd (pmul q d) r = pnorm a) (hlt : r = zeroPoly ∨ r.length < (pnorm d).length) :
    pdivrem a d = some (q, r) := by
  obtain ⟨q', r', hqr, hq', hr', heq, hlt'⟩ := pdivrem_spec a d hd
  have hsum : pmul (padd q q') d = padd r r' := by
    have h3 : padd (padd (pmul q d) r) (padd (pmul q' d) r') = zeroPoly := by rw [h, heq, padd_self]
    have h4 : padd (pmul (padd q q') d) (padd r r') = zeroPoly := by
      rw [padd_pmul, ← h3, padd_assoc, padd_assoc, ← padd_assoc (pmul q' d), padd_comm (pmul q' d) r, padd_assoc r]
    have := padd_eq_zeroPoly h4
    rwa [pnorm_pmul, pnorm_padd] at this
  have hzero : pnorm (padd q q') = zeroPoly := by
    by_contra hne
    have h5 := length_pmul hne hd
    have h6 := pmul_ne_zeroPoly hne hd
    have h7 := length_pnorm_pos (padd q q')
    have h8 := length_pnorm_pos d
    have hrr : (padd r r').length ≤ max r.length r'.length := by
      rw [padd_eq r r' (max r.length r'.length) (by omega) (by omega) (by have := hr.length_pos; omega)]
      refine le_trans (length_pnorm_le _ ?_) ?_
      · have := hr.length_pos
        rw [length_addSeq, length_padTo _ _ (by omega), length_padTo _ _ (by omega)]
        omega
      · rw [length_addSeq, length_padTo _ _ (by omega), length_padTo _ _ (by omega)]
        omega
    rw [← hsum] at hrr
    have hd1 : (pnorm d).length ≤ (pmul (padd q q') d).length := by omega
    have hone : ∀ t : List Byte, (t = zeroPoly ∨ t.length < (pnorm d).length) → t ≠ zeroPoly →
        t.length < (pnorm d).length := fun t ht hn => ht.resolve_left hn
    by_cases hz : r = zeroPoly
    · by_cases hz' : r' = zeroPoly
      · rw [hz, hz', padd_self] at hsum
        exact h6 hsum
      · have h9 := hone r' hlt' hz'
        have := hr'.length_pos
        rw [hz] at hrr
        simp only [zeroPoly, List.length_singleton] at hrr
        omega
    · have h9 := hone r hlt hz
      have := hr.length_pos
      rcases hlt' with hz' | h10
      · rw [hz'] at hrr
        simp only [zeroPoly, List.length_singleton] at hrr
        omega
      · omega
  rw [pnorm_padd] at hzero
  have hqq : q = q' := by
    have := padd_eq_zeroPoly hzero
    rwa [pnorm_eq_self hq, pnorm_eq_self hq'] at this
  have hrr : r = r' := by
    rw [hzero, zeroPoly_pmul] at hsum
    have := padd_eq_zeroPoly hsum.symm
    rwa [pnorm_eq_self hr, pnorm_eq_self hr'] at this
  rw [hqq, hrr]
  exact hqr

/-- A multiple of the divisor leaves no remainder. -/
theorem pdivrem_pmul (q d : List Byte) (hd : pnorm d ≠ zeroPoly) :
    pdivrem (pmul q d) d = some (pnorm q, zeroPoly) := by
  refine pdivrem_unique _ _ _ _ hd (pnorm_normalised q) (.inl rfl) ?_ (.inl rfl)
  rw [pmul_pnorm_left, padd_zeroPoly]

/-- Normalising the dividend first changes nothing. -/
theorem pdivrem_pnorm (a d : List Byte) : pdivrem (pnorm a) d = pdivrem a d := by simp [pdivrem]

end Sys2Proof.Machine
end

