-- ==== Sys2Proof/Laws/Memory.lean ====
section
/-! SUPPORT. The byte memory: a read after a write, the canonical form kept by every write, and what a run of writes
leaves (20_memory.md R33). -/

namespace Sys2Proof.Machine

/-- A read at the address just written gives the byte written; a read anywhere else gives what it gave before. -/
theorem Memory.read_write (m : Memory) (hm : m.Pairwise (fun c d => c.1 < d.1)) (a b : Nat) (v : Byte) :
    (m.write a v).read b = if b = a then v else m.read b := by
  induction m with
  | nil =>
    by_cases hv : v = Memory.unlisted <;> by_cases hb : b = a <;> simp [Memory.write, Memory.read, hv, hb]
  | cons c rest ih =>
    obtain ⟨d, w⟩ := c
    obtain ⟨hlt, hrest⟩ := List.pairwise_cons.mp hm
    have below : ∀ e, e ≤ d → Memory.read rest e = Memory.unlisted := by
      intro e he
      clear ih hm
      induction rest with
      | nil => rfl
      | cons x xs ihx =>
        obtain ⟨y, z⟩ := x
        have h1 := hlt (y, z) (by simp)
        rw [Memory.read, if_neg (by simp at h1; omega)]
        exact ihx (fun c hc => hlt c (by simp [hc])) (List.pairwise_cons.mp hrest).2
    rw [Memory.write]
    split
    · next hlt' =>
      split
      · next hv =>
        by_cases hb : b = a
        · rw [if_pos hb, Memory.read, if_neg (by omega), below b (by omega), hv]
        · rw [if_neg hb]
      · rw [Memory.read]
    · split
      · next had =>
        subst had
        split
        · next hv =>
          by_cases hb : b = a
          · rw [if_pos hb, below b (by omega), hv]
          · rw [if_neg hb, Memory.read, if_neg hb]
        · by_cases hb : b = a
          · rw [Memory.read, if_pos hb, if_pos hb]
          · rw [Memory.read, if_neg hb, if_neg hb, Memory.read, if_neg hb]
      · next had =>
        rw [Memory.read, ih hrest, Memory.read]
        by_cases hb : b = d
        · rw [if_pos hb, if_neg (by omega), if_pos hb]
        · rw [if_neg hb, if_neg hb]

/-- The addresses a memory lists after a write. -/
theorem Memory.mem_write (m : Memory) (a : Nat) (v : Byte) (c : Host.Cell) (hc : c ∈ m.write a v) :
    (c = (a, v) ∧ v ≠ Memory.unlisted) ∨ c ∈ m := by
  induction m with
  | nil =>
    rw [Memory.write] at hc
    split at hc
    · simp at hc
    · next hv => exact .inl ⟨by simpa using hc, hv⟩
  | cons d rest ih =>
    obtain ⟨b, w⟩ := d
    rw [Memory.write] at hc
    split at hc
    · split at hc
      · exact .inr hc
      · next hv =>
        rcases List.mem_cons.mp hc with h | h
        · exact .inl ⟨h, hv⟩
        · exact .inr h
    · split at hc
      · split at hc
        · exact .inr (List.mem_cons_of_mem _ hc)
        · next hv =>
          rcases List.mem_cons.mp hc with h | h
          · exact .inl ⟨h, hv⟩
          · exact .inr (List.mem_cons_of_mem _ h)
      · rcases List.mem_cons.mp hc with h | h
        · exact .inr (by simp [h])
        · rcases ih h with h' | h'
          · exact .inl h'
          · exact .inr (List.mem_cons_of_mem _ h')

/-- A write keeps the canonical form. -/
theorem Memory.write_wf (m : Memory) (a : Nat) (v : Byte) (h : m.wf) : (m.write a v).wf := by
  obtain ⟨hp, hn⟩ := h
  refine ⟨?_, ?_⟩
  · clear hn
    induction m with
    | nil =>
      rw [Memory.write]
      split <;> simp
    | cons d rest ih =>
      obtain ⟨b, w⟩ := d
      obtain ⟨hlt, hrest⟩ := List.pairwise_cons.mp hp
      rw [Memory.write]
      split
      · next hab =>
        split
        · exact hp
        · refine List.pairwise_cons.mpr ⟨?_, hp⟩
          intro c hc
          rcases List.mem_cons.mp hc with h | h
          · simpa [h] using hab
          · exact lt_trans hab (hlt c h)
      · split
        · next hab =>
          subst hab
          split
          · exact hrest
          · exact List.pairwise_cons.mpr ⟨hlt, hrest⟩
        · next h1 h2 =>
          refine List.pairwise_cons.mpr ⟨?_, ih hrest⟩
          intro c hc
          rcases Memory.mem_write rest a v c hc with ⟨h, -⟩ | h
          · rw [h]
            show b < a
            omega
          · exact hlt c h
  · intro c hc
    rcases Memory.mem_write m a v c hc with ⟨h, hv⟩ | h
    · rw [h]
      exact hv
    · exact hn c h

/-- A write inside the buffer lists no address outside it. -/
theorem Memory.write_inGen (m : Memory) (a : Nat) (v : Byte) (h : m.inGen) (ha : a < Config.genSize) :
    (m.write a v).inGen := by
  intro c hc
  rcases Memory.mem_write m a v c hc with ⟨h', -⟩ | h'
  · rw [h']
    exact ha
  · exact h c h'

theorem Memory.writeFrom_wf (m : Memory) (i : Nat) (l : List Byte) (h : m.wf) : (m.writeFrom i l).wf := by
  induction l generalizing m i with
  | nil => exact h
  | cons v vs ih => exact ih _ _ (Memory.write_wf m i v h)

theorem Memory.writeFrom_inGen (m : Memory) (i : Nat) (l : List Byte) (h : m.inGen)
    (hi : i + l.length ≤ Config.genSize) : (m.writeFrom i l).inGen := by
  induction l generalizing m i with
  | nil => exact h
  | cons v vs ih =>
    simp only [List.length_cons] at hi
    exact ih _ _ (Memory.write_inGen m i v h (by omega)) (by omega)

/-- What a run of writes leaves: the bytes written at their indices, everything else as it was. -/
theorem Memory.read_writeFrom (m : Memory) (i : Nat) (l : List Byte) (h : m.wf) (b : Nat) :
    (m.writeFrom i l).read b = if i ≤ b ∧ b < i + l.length then l.getD (b - i) 0x00#8 else m.read b := by
  induction l generalizing m i with
  | nil =>
    rw [Memory.writeFrom, if_neg]
    simp
  | cons v vs ih =>
    rw [Memory.writeFrom, ih _ _ (Memory.write_wf m i v h), Memory.read_write m h.1]
    simp only [List.length_cons]
    by_cases h1 : b = i
    · rw [if_neg (by omega), if_pos h1, if_pos (by omega), h1]
      simp
    · by_cases h2 : i + 1 ≤ b ∧ b < i + 1 + vs.length
      · rw [if_pos h2, if_pos (by omega), show b - i = (b - (i + 1)) + 1 by omega, List.getD_cons_succ]
      · rw [if_neg h2, if_neg h1, if_neg (by omega)]

@[simp] theorem Memory.length_readSeq (m : Memory) (len : Nat) : (m.readSeq len).length = len := by
  simp [Memory.readSeq]

/-- Reading back a sequence written from index 0. -/
theorem Memory.readSeq_writeFrom (m : Memory) (l : List Byte) (h : m.wf) :
    (m.writeFrom 0 l).readSeq l.length = l := by
  apply List.ext_getElem (by simp)
  intro i h1 h2
  simp only [Memory.readSeq, List.getElem_map, List.getElem_range]
  rw [Memory.read_writeFrom m 0 l h, if_pos (by omega), Nat.sub_zero, List.getD_eq_getElem _ _ h2]

theorem Memory.nil_wf : Memory.wf [] := ⟨List.Pairwise.nil, fun _ h => absurd h List.not_mem_nil⟩

end Sys2Proof.Machine
end

