-- ==== Sys2Proof/Laws/State.lean ====
section
/-! SUPPORT. One lemma per field per update of the state and of the registers, each true by rfl. -/

namespace Sys2Proof.Machine

@[simp] theorem State.answer_regs (s : State) (f : Frame) : (s.answer f).regs = s.regs := rfl
@[simp] theorem State.answer_inputs (s : State) (f : Frame) : (s.answer f).inputs = s.inputs := rfl
@[simp] theorem State.answer_responses (s : State) (f : Frame) :
    (s.answer f).responses = s.responses ++ [f] := rfl

@[simp] theorem State.present_regs (s : State) (f : Frame) : (s.present f).regs = s.regs := rfl
@[simp] theorem State.present_inputs (s : State) (f : Frame) :
    (s.present f).inputs = .command f :: s.inputs := rfl
@[simp] theorem State.present_responses (s : State) (f : Frame) : (s.present f).responses = s.responses := rfl

@[simp] theorem State.withInputs_regs (s : State) (l : List HostInput) : (s.withInputs l).regs = s.regs := rfl
@[simp] theorem State.withInputs_inputs (s : State) (l : List HostInput) : (s.withInputs l).inputs = l := rfl
@[simp] theorem State.withInputs_responses (s : State) (l : List HostInput) :
    (s.withInputs l).responses = s.responses := rfl

@[simp] theorem State.hostReset_regs (s : State) : s.hostReset.regs = Regs.reset := rfl
@[simp] theorem State.hostReset_inputs (s : State) : s.hostReset.inputs = s.inputs := rfl
@[simp] theorem State.hostReset_responses (s : State) : s.hostReset.responses = s.responses := rfl

/-- Taking the frame that was just presented gives the state back. -/
@[simp] theorem State.present_withInputs (s : State) (f : Frame) : (s.present f).withInputs s.inputs = s := rfl

@[simp] theorem State.reset_regs : State.reset.regs = Regs.reset := rfl
@[simp] theorem State.reset_inputs : State.reset.inputs = [] := rfl
@[simp] theorem State.reset_responses : State.reset.responses = [] := rfl

@[simp] theorem Regs.install_cfgValid (r : Regs) (n k : Half) (g : Byte) (G : List Byte) :
    (r.install n k g G).cfgValid = true := rfl
@[simp] theorem Regs.install_cfgN (r : Regs) (n k : Half) (g : Byte) (G : List Byte) :
    (r.install n k g G).cfgN = n.setWidth 9 := rfl
@[simp] theorem Regs.install_cfgK (r : Regs) (n k : Half) (g : Byte) (G : List Byte) :
    (r.install n k g G).cfgK = k.setWidth 9 := rfl
@[simp] theorem Regs.install_cfgG (r : Regs) (n k : Half) (g : Byte) (G : List Byte) :
    (r.install n k g G).cfgG = g := rfl
@[simp] theorem Regs.install_genLen (r : Regs) (n k : Half) (g : Byte) (G : List Byte) :
    (r.install n k g G).genLen = BitVec.ofNat 9 G.length := rfl
@[simp] theorem Regs.install_gen (r : Regs) (n k : Half) (g : Byte) (G : List Byte) :
    (r.install n k g G).gen = r.gen.writeFrom 0 G := rfl

end Sys2Proof.Machine
end

