-- ==== Sys2Proof/Laws/Codec.lean ====
section
/-! SUPPORT. The generator polynomial (43_reed_solomon.md R133), the installation of a codec instance (R135), and what
RS.ENCODE and RS.CHECK compute in a state that meets the invariant (R136, R137). -/

namespace Sys2Proof.Machine

/-! ### The generator polynomial -/

theorem genpoly_self (n : Nat) (g : Byte) : genpoly n n g = [0x01#8] := by simp [genpoly]

/-- One more root, one more factor (R133). -/
theorem genpoly_add_succ (k m : Nat) (g : Byte) :
    genpoly (k + (m + 1)) k g = pmul (genpoly (k + m) k g) [0x01#8, gfExp g (m + 1)] := by
  simp only [genpoly, Nat.add_sub_cancel_left, List.range'_concat, List.foldl_append, List.foldl_cons, List.foldl_nil]
  rw [Nat.one_mul, Nat.add_comm 1 m]

/-- The generator polynomial is monic and has n - k + 1 coefficients (R133). -/
theorem genpoly_monic (k m : Nat) (g : Byte) : ∃ t, genpoly (k + m) k g = 0x01#8 :: t ∧ t.length = m := by
  induction m with
  | zero => exact ⟨[], genpoly_self k g, rfl⟩
  | succ m ih =>
    obtain ⟨t, ht, hl⟩ := ih
    obtain ⟨u, hu⟩ := conv_cons_cons 0x01#8 0x01#8 t [gfExp g (m + 1)]
    have hlen := length_conv (0x01#8 :: t) [0x01#8, gfExp g (m + 1)] (by simp)
    rw [genpoly_add_succ, ht, pmul_of_heads _ _ _ _ (by decide) (by decide), hu]
    refine ⟨u, by simp, ?_⟩
    rw [hu] at hlen
    simp only [List.length_cons, List.length_nil] at hlen
    omega

theorem length_genpoly (n k : Nat) (g : Byte) (h : k ≤ n) : (genpoly n k g).length = n - k + 1 := by
  obtain ⟨m, rfl⟩ := Nat.exists_eq_add_of_le h
  obtain ⟨t, ht, hl⟩ := genpoly_monic k m g
  rw [ht, List.length_cons, hl]
  omega

theorem genpoly_head (n k : Nat) (g : Byte) (h : k ≤ n) : ∃ t, genpoly n k g = 0x01#8 :: t := by
  obtain ⟨m, rfl⟩ := Nat.exists_eq_add_of_le h
  obtain ⟨t, ht, -⟩ := genpoly_monic k m g
  exact ⟨t, ht⟩

theorem pnorm_genpoly (n k : Nat) (g : Byte) (h : k ≤ n) : pnorm (genpoly n k g) = genpoly n k g := by
  obtain ⟨t, ht⟩ := genpoly_head n k g h
  rw [ht, pnorm_of_head_ne_zero _ (by decide)]

theorem genpoly_ne_zeroPoly (n k : Nat) (g : Byte) (h : k ≤ n) : pnorm (genpoly n k g) ≠ zeroPoly := by
  rw [pnorm_genpoly n k g h]
  obtain ⟨t, ht⟩ := genpoly_head n k g h
  rw [ht]
  intro hc
  exact absurd (List.cons.inj hc).1 (by decide)

/-! ### Installation -/

theorem Regs.genSeq_eq (r : Regs) (h : r.Inv) (hv : r.cfgValid = true) :
    r.genSeq = .ok (genpoly r.cfgN.toNat r.cfgK.toNat r.cfgG) := by
  have h1 := h.genLenEq hv
  have h2 := h.nLe hv
  have h3 := h.kPos hv
  have h4 := h.kLeN hv
  simp only [Config.nMax] at h2
  rw [Regs.genSeq, if_pos (by simp only [Config.genSize]; omega), h.genEq hv]

theorem Regs.reset_inv : Regs.reset.Inv where
  genWf := Memory.nil_wf
  genInGen := by simp [Regs.reset]
  kPos := by simp [Regs.reset]
  kLeN := by simp [Regs.reset]
  nLe := by simp [Regs.reset]
  genLenEq := by simp [Regs.reset]
  genEq := by simp [Regs.reset]
  unconfigured := fun _ => rfl

theorem toNat_setWidth_nine (n : Half) (h : n.toNat ≤ 256) : (n.setWidth 9).toNat = n.toNat := by
  rw [BitVec.toNat_setWidth]
  omega

/-- A configuration that passed the tests of R132 establishes the invariant (R21, R135). -/
theorem Regs.install_inv (r : Regs) (h : r.Inv) (n k : Half) (g : Byte) (hk : 1 ≤ k.toNat) (hkn : k.toNat ≤ n.toNat)
    (hn : n.toNat ≤ Config.nMax) : (r.install n k g (genpoly n.toNat k.toNat g)).Inv := by
  simp only [Config.nMax] at hn
  have hl := length_genpoly n.toNat k.toNat g hkn
  have en := toNat_setWidth_nine n hn
  have ek := toNat_setWidth_nine k (by omega)
  have egl : (BitVec.ofNat 9 (genpoly n.toNat k.toNat g).length).toNat = (genpoly n.toNat k.toNat g).length := by
    rw [BitVec.toNat_ofNat]
    omega
  refine ⟨Memory.writeFrom_wf _ _ _ h.genWf, Memory.writeFrom_inGen _ _ _ h.genInGen ?_, ?_, ?_, ?_, ?_, ?_, ?_⟩
  · simp only [Config.genSize]
    omega
  · intro _
    rw [Regs.install_cfgK, ek]
    exact hk
  · intro _
    rw [Regs.install_cfgK, Regs.install_cfgN, ek, en]
    exact hkn
  · intro _
    rw [Regs.install_cfgN, en]
    exact hn
  · intro _
    rw [Regs.install_genLen, Regs.install_cfgN, Regs.install_cfgK, egl, en, ek, hl]
  · intro _
    rw [Regs.install_genLen, Regs.install_cfgN, Regs.install_cfgK, Regs.install_cfgG, egl, en, ek, Regs.install_gen,
      Memory.readSeq_writeFrom _ _ h.genWf]
  · intro hv
    simp at hv

/-! ### The registers of a valid configuration -/

theorem Regs.generator_eq (r : Regs) (h : r.Inv) (hv : r.cfgValid = true) :
    r.generator = genpoly r.cfgN.toNat r.cfgK.toNat r.cfgG := h.genEq hv

theorem Regs.generator_ne_zeroPoly (r : Regs) (h : r.Inv) (hv : r.cfgValid = true) : pnorm r.generator ≠ zeroPoly := by
  rw [r.generator_eq h hv]
  exact genpoly_ne_zeroPoly _ _ _ (h.kLeN hv)

theorem Regs.pnorm_generator (r : Regs) (h : r.Inv) (hv : r.cfgValid = true) : pnorm r.generator = r.generator := by
  rw [r.generator_eq h hv]
  exact pnorm_genpoly _ _ _ (h.kLeN hv)

theorem Regs.length_generator (r : Regs) (h : r.Inv) (hv : r.cfgValid = true) : r.generator.length = r.degree + 1 := by
  rw [r.generator_eq h hv, length_genpoly _ _ _ (h.kLeN hv)]
  rfl

/-! ### The message polynomial -/

theorem Regs.pnorm_message (r : Regs) (m : List Byte) : pnorm (r.message m) = r.message m := pnorm_pnorm _

/-- The message polynomial is m(x) · x^k (R137). -/
theorem Regs.message_eq_pmul (r : Regs) (m : List Byte) : r.message m = pmul m (0x01#8 :: zeros r.cfgK.toNat) :=
  (pmul_monomial m _).symm

/-- Zeros behind a nonzero polynomial stay as they are (R139). -/
theorem pnorm_append_zeros {m : List Byte} (hm : pnorm m ≠ zeroPoly) (k : Nat) :
    pnorm (m ++ zeros k) = pnorm m ++ zeros k := by
  obtain ⟨x, xs, hx, hx0⟩ := normalised_head (pnorm_normalised m) hm
  rw [← pmul_monomial, ← pmul_pnorm_left, hx, pmul_monomial, List.cons_append, pnorm_of_head_ne_zero _ hx0]

/-- A subtrahend shorter than the polynomial changes its low end alone (R139). -/
theorem psub_of_shorter {c : Byte} {a b r : List Byte} (hc : c ≠ 0x00#8) (hl : b.length = r.length) :
    psub (c :: a ++ b) r = c :: a ++ addSeq b r := by
  rw [psub, padd_eq (c :: a ++ b) r (c :: a ++ b).length le_rfl (by simp; omega) (by simp), padTo_self, padTo,
    show (c :: a ++ b).length - r.length = (c :: a).length by simp; omega, addSeq_append _ _ _ _ (by simp),
    addSeq_zeros _ _ rfl, List.cons_append, pnorm_of_head_ne_zero _ hc]

/-! ### Encode and check -/

/-- What RS.ENCODE and RS.CHECK do with a message they accept: the division is defined, and the response is made from
its remainder. -/
theorem withRemainder_eq (m : List Byte) (s : State) (answer : List Byte → List Byte → Response) (h : s.Inv)
    (hm : s.regs.accepts m) :
    ∃ q r, pdivrem (s.regs.message m) s.regs.generator = some (q, r) ∧
      withRemainder m s answer = respond (answer (s.regs.message m) r) s := by
  obtain ⟨hv, hne, hl⟩ := hm
  have hgen : s.regs.generator = genpoly s.regs.cfgN.toNat s.regs.cfgK.toNat s.regs.cfgG := h.genEq hv
  obtain ⟨q, r, hqr, -⟩ := pdivrem_spec (s.regs.message m) _
    (genpoly_ne_zeroPoly _ _ s.regs.cfgG (h.kLeN hv))
  refine ⟨q, r, by rw [hgen, hqr], ?_⟩
  have hm0 : m.length ≠ 0 := by simpa using hne
  rw [withRemainder, if_neg (by simp [hv]), if_neg hm0, if_neg (by simp only [Config.maxLen]; omega),
    Regs.genSeq_eq _ h hv]
  simp only [Regs.message] at hqr ⊢
  simp only [hqr]

theorem withRemainder_not_configured (m : List Byte) (s : State) (answer : List Byte → List Byte → Response)
    (h : s.regs.cfgValid = false) : withRemainder m s answer = raise .notConfigured s := by
  rw [withRemainder, if_pos h]

theorem withRemainder_empty (s : State) (answer : List Byte → List Byte → Response) (h : s.regs.cfgValid = true) :
    withRemainder [] s answer = raise .invalidMessage s := by
  rw [withRemainder, if_neg (by simp [h]), if_pos List.length_nil]

theorem withRemainder_too_long (m : List Byte) (s : State) (answer : List Byte → List Byte → Response)
    (h : s.regs.cfgValid = true) (hm : m ≠ []) (hl : 65535 < m.length + s.regs.cfgK.toNat) :
    withRemainder m s answer = raise .range s := by
  rw [withRemainder, if_neg (by simp [h]), if_neg (by simpa using hm), if_pos (by simpa [Config.maxLen] using hl)]

end Sys2Proof.Machine
end

