-- ==== Sys2Proof/Laws/Decode.lean ====
section
/-! SUPPORT. The opcode map is one to one (30_encoding.md R50), 16-bit fields survive assembly (R48), and one lemma
per operand format says exactly which byte strings it reads (R58). -/

namespace Sys2Proof

open Machine (be16 be16Bytes lengthField hi8 lo8)

/-! ### 16-bit fields -/

@[simp] theorem be16_hi8_lo8 (v : Half) : be16 (hi8 v) (lo8 v) = v := by
  simp only [be16, hi8, lo8]
  rw [BitVec.extractLsb'_append_extractLsb'_eq_extractLsb' (by rfl)]
  simp

@[simp] theorem hi8_be16 (h l : Byte) : hi8 (be16 h l) = h := BitVec.extractLsb'_append_eq_left

@[simp] theorem lo8_be16 (h l : Byte) : lo8 (be16 h l) = l := BitVec.extractLsb'_append_eq_right

@[simp] theorem be16Bytes_be16 (h l : Byte) : be16Bytes (be16 h l) = [h, l] := by simp [be16Bytes]

/-- A 16-bit field has the value 256·hi + lo (R48). -/
theorem toNat_be16 (h l : Byte) : (be16 h l).toNat = 256 * h.toNat + l.toNat := by
  rw [be16, BitVec.toNat_append, Nat.shiftLeft_eq, Nat.mul_comm]
  exact (Nat.two_pow_add_eq_or_of_lt (i := 8) l.isLt h.toNat).symm

theorem toNat_lengthField (s : List Byte) (h : s.length ≤ Config.maxLen) : (lengthField s).toNat = s.length := by
  simp only [Config.maxLen] at h
  rw [lengthField, BitVec.toNat_ofNat]
  omega

theorem lengthField_eq_be16 (s : List Byte) (h l : Byte) (hs : s.length = (be16 h l).toNat) :
    lengthField s = be16 h l := by
  rw [lengthField, hs, BitVec.ofNat_toNat, BitVec.setWidth_eq]

theorem toNat_be16_le (h l : Byte) : (be16 h l).toNat ≤ Config.maxLen := by
  have := (be16 h l).isLt
  simp only [Config.maxLen]
  omega

theorem fitsLength_of_be16 (s : List Byte) (h l : Byte) (hs : s.length = (be16 h l).toNat) : fitsLength s = true := by
  rw [fitsLength, hs, decide_eq_true_iff]
  exact toNat_be16_le h l

/-! ### The opcode map -/

@[simp] theorem opcodeOf_byte (o : Opcode) : opcodeOf o.byte = some o := by cases o <;> decide

theorem byte_of_opcodeOf {b : Byte} {o : Opcode} (h : opcodeOf b = some o) : o.byte = b := by
  have := List.find?_some h
  simpa using this

/-! ### Operand formats: which byte strings each reads -/

theorem operandsZ_eq_some (k i : Instr) (f : Frame) : operandsZ k f = some i ↔ f = [] ∧ k = i := by
  cases f <;> simp [operandsZ]

theorem operandsA_eq_some (k : Byte → Instr) (i : Instr) (f : Frame) :
    operandsA k f = some i ↔ ∃ a, f = [a] ∧ k a = i := by
  rcases f with _ | ⟨a, _ | ⟨b, f⟩⟩ <;> simp [operandsA]

theorem operandsAB_eq_some (k : Byte → Byte → Instr) (i : Instr) (f : Frame) :
    operandsAB k f = some i ↔ ∃ a b, f = [a, b] ∧ k a b = i := by
  rcases f with _ | ⟨a, _ | ⟨b, _ | ⟨c, f⟩⟩⟩ <;> simp [operandsAB]

theorem operandsAP_eq_some (k : Byte → Half → Instr) (i : Instr) (f : Frame) :
    operandsAP k f = some i ↔ ∃ a h l, f = [a, h, l] ∧ k a (be16 h l) = i := by
  rcases f with _ | ⟨a, _ | ⟨b, _ | ⟨c, _ | ⟨d, f⟩⟩⟩⟩ <;> simp [operandsAP]

theorem operandsI_eq_some (k : Half → Instr) (i : Instr) (f : Frame) :
    operandsI k f = some i ↔ ∃ h l, f = [h, l] ∧ k (be16 h l) = i := by
  rcases f with _ | ⟨a, _ | ⟨b, _ | ⟨c, f⟩⟩⟩ <;> simp [operandsI]

theorem operandsRC_eq_some (k : Half → Half → Byte → Instr) (i : Instr) (f : Frame) :
    operandsRC k f = some i ↔ ∃ nh nl kh kl g, f = [nh, nl, kh, kl, g] ∧ k (be16 nh nl) (be16 kh kl) g = i := by
  rcases f with _ | ⟨a, _ | ⟨b, _ | ⟨c, _ | ⟨d, _ | ⟨e, _ | ⟨x, f⟩⟩⟩⟩⟩⟩ <;> simp [operandsRC]

theorem operandsPE_eq_some (k : Byte → List Byte → Instr) (i : Instr) (f : Frame) :
    operandsPE k f = some i ↔
      ∃ x h l c, f = x :: h :: l :: c ∧ c.length = (be16 h l).toNat ∧ k x c = i := by
  rcases f with _ | ⟨a, _ | ⟨b, _ | ⟨c, f⟩⟩⟩ <;> simp [operandsPE]

theorem operandsPM_eq_some (k : List Byte → List Byte → Instr) (i : Instr) (f : Frame) :
    operandsPM k f = some i ↔
      ∃ ah al bh bl a b, f = ah :: al :: bh :: bl :: (a ++ b) ∧ a.length = (be16 ah al).toNat ∧
        b.length = (be16 bh bl).toNat ∧ k a b = i := by
  rcases f with _ | ⟨p, _ | ⟨q, _ | ⟨r, _ | ⟨t, f⟩⟩⟩⟩
  · simp [operandsPM]
  · simp [operandsPM]
  · simp [operandsPM]
  · simp [operandsPM]
  · simp only [operandsPM]
    constructor
    · intro h
      split at h
      · next hl =>
        refine ⟨p, q, r, t, f.take (be16 p q).toNat, f.drop (be16 p q).toNat, by simp, ?_, ?_, by simpa using h⟩
        · rw [List.length_take]
          omega
        · rw [List.length_drop]
          omega
      · simp at h
    · rintro ⟨ah, al, bh, bl, a, b, hf, ha, hb, rfl⟩
      obtain ⟨rfl, rfl, rfl, rfl, rfl⟩ : p = ah ∧ q = al ∧ r = bh ∧ t = bl ∧ f = a ++ b := by simpa using hf
      rw [if_pos (by simp [ha, hb]), ← ha, List.take_left', List.drop_left'] <;> rfl

theorem operandsRM_eq_some (k : List Byte → Instr) (i : Instr) (f : Frame) :
    operandsRM k f = some i ↔ ∃ h l m, f = h :: l :: m ∧ m.length = (be16 h l).toNat ∧ k m = i := by
  rcases f with _ | ⟨a, _ | ⟨b, f⟩⟩ <;> simp [operandsRM]

/-! ### The decoder -/

theorem decode_nil : decode [] = .error .emptyFrame := rfl

theorem decode_of_operands {o : Opcode} {rest : Frame} {i : Instr} (h : operandsOf o rest = some i) :
    decode (o.byte :: rest) = .ok i := by
  simp only [decode, opcodeOf_byte, h]

theorem decode_of_wrong_length {o : Opcode} {rest : Frame} (h : operandsOf o rest = none) :
    decode (o.byte :: rest) = .error .wrongLength := by
  simp only [decode, opcodeOf_byte, h]

theorem decode_cons_of_unknown {b : Byte} (h : opcodeOf b = none) (rest : Frame) :
    decode (b :: rest) = .error .unknownOpcode := by
  simp [decode, h]

/-- What the decoder accepts: an assigned opcode followed by operands its format reads. -/
theorem decode_eq_ok (f : Frame) (i : Instr) :
    decode f = .ok i ↔ ∃ o rest, f = Opcode.byte o :: rest ∧ operandsOf o rest = some i := by
  constructor
  · intro h
    cases f with
    | nil => simp [decode] at h
    | cons b rest =>
      rw [decode] at h
      cases ho : opcodeOf b with
      | none => simp [ho] at h
      | some o =>
        simp only [ho] at h
        cases hr : operandsOf o rest with
        | none => simp [hr] at h
        | some j =>
          simp only [hr, Except.ok.injEq] at h
          exact ⟨o, rest, by rw [byte_of_opcodeOf ho], by rw [hr, h]⟩
  · rintro ⟨o, rest, rfl, h⟩
    exact decode_of_operands h

end Sys2Proof
end

