-- ==== Sys2Proof/Laws/PerInstr.lean ====
section
/-! SUPPORT. Facts made instruction by instruction. Family FrameLength: the frame of a well-formed instruction has
exactly the required length of 30_encoding.md R49. -/

namespace Sys2Proof

open Machine (be16 be16Bytes lengthField hi8 lo8)

/-- The frame of `i` has its required length (R49). -/
def Laws.FrameLength.Statement (i : Instr) : Prop :=
  i.wf = true → requiredLength (encode i) = some (encode i).length

theorem requiredLength_byte_cons (o : Opcode) (rest : Frame) :
    requiredLength (o.byte :: rest) = formatLength o.format rest := by
  simp only [requiredLength, opcodeOf_byte]

theorem toNat_lengthField_of_fits (s : List Byte) (h : fitsLength s = true) : (lengthField s).toNat = s.length :=
  toNat_lengthField s (of_decide_eq_true h)

theorem Laws.FrameLength.gfZero : Laws.FrameLength.Statement .gfZero := fun _ => rfl
theorem Laws.FrameLength.gfOne : Laws.FrameLength.Statement .gfOne := fun _ => rfl
theorem Laws.FrameLength.gfAdd (a b : Byte) : Laws.FrameLength.Statement (.gfAdd a b) := fun _ => rfl
theorem Laws.FrameLength.gfSub (a b : Byte) : Laws.FrameLength.Statement (.gfSub a b) := fun _ => rfl
theorem Laws.FrameLength.gfMul (a b : Byte) : Laws.FrameLength.Statement (.gfMul a b) := fun _ => rfl
theorem Laws.FrameLength.gfDiv (a b : Byte) : Laws.FrameLength.Statement (.gfDiv a b) := fun _ => rfl
theorem Laws.FrameLength.gfInv (a : Byte) : Laws.FrameLength.Statement (.gfInv a) := fun _ => rfl
theorem Laws.FrameLength.gfExp (a : Byte) (power : Half) : Laws.FrameLength.Statement (.gfExp a power) := fun _ => rfl
theorem Laws.FrameLength.gfNeg (a : Byte) : Laws.FrameLength.Statement (.gfNeg a) := fun _ => rfl
theorem Laws.FrameLength.gfEq (a b : Byte) : Laws.FrameLength.Statement (.gfEq a b) := fun _ => rfl
theorem Laws.FrameLength.gfFromb (v : Byte) : Laws.FrameLength.Statement (.gfFromb v) := fun _ => rfl
theorem Laws.FrameLength.tblLog (a : Byte) : Laws.FrameLength.Statement (.tblLog a) := fun _ => rfl
theorem Laws.FrameLength.tblAlog (idx : Half) : Laws.FrameLength.Statement (.tblAlog idx) := fun _ => rfl
theorem Laws.FrameLength.tblInv (a : Byte) : Laws.FrameLength.Statement (.tblInv a) := fun _ => rfl

theorem Laws.FrameLength.polyEval (x : Byte) (c : List Byte) : Laws.FrameLength.Statement (.polyEval x c) := by
  intro h
  simp only [encode, requiredLength_byte_cons, Instr.opcode, Opcode.format, formatLength, Instr.operandBytes, be16Bytes,
    List.cons_append, List.nil_append, be16_hi8_lo8, toNat_lengthField_of_fits c h, List.length_cons]
  congr 1
  omega

theorem Laws.FrameLength.polyMul (a b : List Byte) : Laws.FrameLength.Statement (.polyMul a b) := by
  intro h
  obtain ⟨ha, hb⟩ : fitsLength a = true ∧ fitsLength b = true := by simpa [Instr.wf] using h
  simp only [encode, requiredLength_byte_cons, Instr.opcode, Opcode.format, formatLength, Instr.operandBytes, be16Bytes,
    List.cons_append, List.nil_append, be16_hi8_lo8, toNat_lengthField_of_fits a ha, toNat_lengthField_of_fits b hb,
    List.length_cons, List.length_append]
  congr 1
  omega

theorem Laws.FrameLength.rsConfig (n k : Half) (g : Byte) : Laws.FrameLength.Statement (.rsConfig n k g) := fun _ => rfl

theorem Laws.FrameLength.rsEncode (m : List Byte) : Laws.FrameLength.Statement (.rsEncode m) := by
  intro h
  simp only [encode, requiredLength_byte_cons, Instr.opcode, Opcode.format, formatLength, Instr.operandBytes, be16Bytes,
    List.cons_append, List.nil_append, be16_hi8_lo8, toNat_lengthField_of_fits m h, List.length_cons]
  congr 1
  omega

theorem Laws.FrameLength.rsCheck (m : List Byte) : Laws.FrameLength.Statement (.rsCheck m) := by
  intro h
  simp only [encode, requiredLength_byte_cons, Instr.opcode, Opcode.format, formatLength, Instr.operandBytes, be16Bytes,
    List.cons_append, List.nil_append, be16_hi8_lo8, toNat_lengthField_of_fits m h, List.length_cons]
  congr 1
  omega

theorem Laws.FrameLength.rsGenrd : Laws.FrameLength.Statement .rsGenrd := fun _ => rfl
theorem Laws.FrameLength.rsStat : Laws.FrameLength.Statement .rsStat := fun _ => rfl

end Sys2Proof
end

