-- ==== Sys2Proof/Laws/Step.lean ====
section
/-! SUPPORT. What one command can do, and what one step can do, said once: every later proof about `exec` or `step`
starts from `exec_next` and `step_next`. -/

namespace Sys2Proof.Machine

/-! ### The shared operations -/

theorem respond_eq (r : Response) (s : State) : respond r s = .next (s.answer r.bytes) := rfl

theorem raise_eq (st : Status) (s : State) : raise st s = .next (s.answer [st.code]) := rfl

theorem respond_next {r : Response} {s t : State} (h : respond r s = .next t) : t = s.answer r.bytes := by
  simpa [respond] using h.symm

theorem raise_next {st : Status} {s t : State} (h : raise st s = .next t) : t = s.answer [st.code] := by
  simpa [raise, Response.bytes] using h.symm

/-- Everything RS.ENCODE and RS.CHECK do when they answer: one of three statuses, or the response made from some
remainder. -/
theorem withRemainder_next {m : List Byte} {s t : State} {answer : List Byte → List Byte → Response}
    (h : withRemainder m s answer = .next t) :
    t = s.answer [Status.notConfigured.code] ∨ t = s.answer [Status.invalidMessage.code] ∨
    t = s.answer [Status.range.code] ∨ ∃ M r, t = s.answer (answer M r).bytes := by
  rw [withRemainder] at h
  split at h
  · exact .inl (raise_next h)
  split at h
  · exact .inr (.inl (raise_next h))
  split at h
  · exact .inr (.inr (.inl (raise_next h)))
  split at h
  · simp at h
  split at h
  · simp at h
  · exact .inr (.inr (.inr ⟨_, _, respond_next h⟩))

/-- The status a response carries in its byte 0 (R51). -/
def Response.statusOf : Response → Status
  | .status st => st
  | .value _ => .ok
  | .sequence _ => .ok
  | .config _ _ _ _ => .ok

theorem Response.bytes_eq_cons (r : Response) : ∃ rest, r.bytes = r.statusOf.code :: rest := by
  cases r <;> exact ⟨_, rfl⟩

/-- A response with a status other than OK is that status alone (R52). -/
theorem Response.bytes_of_status_ne_ok {r : Response} (h : r.statusOf ≠ .ok) : r.bytes = [r.statusOf.code] := by
  cases r <;> first | rfl | exact absurd rfl h

/-! ### One command -/

/-- A command that is not RS.CONFIG can only answer, with one of its statuses. -/
theorem exec_next_of_not_config {i : Instr} {s t : State} (hi : i.opcode ≠ .rsConfig) (h : exec i s = .next t) :
    ∃ r : Response, t = s.answer r.bytes ∧ r.statusOf ∈ opcodeStatuses i.opcode := by
  cases i with
  | gfZero | gfOne | gfAdd | gfSub | gfMul | gfExp | gfNeg | gfEq | gfFromb | polyEval | rsStat =>
    exact ⟨_, respond_next h, by simp [Response.statusOf, opcodeStatuses, Instr.opcode]⟩
  | gfDiv a b =>
    simp only [exec, execGfDiv] at h
    split at h
    · exact ⟨.status _, raise_next h, by simp [Response.statusOf, opcodeStatuses, Instr.opcode]⟩
    · exact ⟨_, respond_next h, by simp [Response.statusOf, opcodeStatuses, Instr.opcode]⟩
  | gfInv a =>
    simp only [exec, execGfInv] at h
    split at h
    · exact ⟨.status _, raise_next h, by simp [Response.statusOf, opcodeStatuses, Instr.opcode]⟩
    · exact ⟨_, respond_next h, by simp [Response.statusOf, opcodeStatuses, Instr.opcode]⟩
  | tblLog a =>
    simp only [exec, execTblLog] at h
    split at h
    · exact ⟨.status _, raise_next h, by simp [Response.statusOf, opcodeStatuses, Instr.opcode]⟩
    · exact ⟨_, respond_next h, by simp [Response.statusOf, opcodeStatuses, Instr.opcode]⟩
  | tblAlog idx =>
    simp only [exec, execTblAlog] at h
    split at h
    · exact ⟨.status _, raise_next h, by simp [Response.statusOf, opcodeStatuses, Instr.opcode]⟩
    · exact ⟨_, respond_next h, by simp [Response.statusOf, opcodeStatuses, Instr.opcode]⟩
  | tblInv a =>
    simp only [exec, execTblInv] at h
    split at h
    · exact ⟨.status _, raise_next h, by simp [Response.statusOf, opcodeStatuses, Instr.opcode]⟩
    · exact ⟨_, respond_next h, by simp [Response.statusOf, opcodeStatuses, Instr.opcode]⟩
  | polyMul a b =>
    simp only [exec, execPolyMul] at h
    split at h
    · exact ⟨.status _, raise_next h, by simp [Response.statusOf, opcodeStatuses, Instr.opcode]⟩
    · exact ⟨_, respond_next h, by simp [Response.statusOf, opcodeStatuses, Instr.opcode]⟩
  | rsConfig n k g => exact absurd rfl hi
  | rsEncode m =>
    simp only [exec, execRsEncode] at h
    rcases withRemainder_next h with h | h | h | ⟨_, _, h⟩
    · exact ⟨.status _, h, by simp [Response.statusOf, opcodeStatuses, Instr.opcode]⟩
    · exact ⟨.status _, h, by simp [Response.statusOf, opcodeStatuses, Instr.opcode]⟩
    · exact ⟨.status _, h, by simp [Response.statusOf, opcodeStatuses, Instr.opcode]⟩
    · exact ⟨_, h, by simp [Response.statusOf, opcodeStatuses, Instr.opcode]⟩
  | rsCheck m =>
    simp only [exec, execRsCheck] at h
    rcases withRemainder_next h with h | h | h | ⟨_, _, h⟩
    · exact ⟨.status _, h, by simp [Response.statusOf, opcodeStatuses, Instr.opcode]⟩
    · exact ⟨.status _, h, by simp [Response.statusOf, opcodeStatuses, Instr.opcode]⟩
    · exact ⟨.status _, h, by simp [Response.statusOf, opcodeStatuses, Instr.opcode]⟩
    · exact ⟨_, h, by simp [Response.statusOf, opcodeStatuses, Instr.opcode]⟩
  | rsGenrd =>
    simp only [exec, execRsGenrd] at h
    split at h
    · exact ⟨.status _, raise_next h, by simp [Response.statusOf, opcodeStatuses, Instr.opcode]⟩
    split at h
    · simp at h
    · exact ⟨_, respond_next h, by simp [Response.statusOf, opcodeStatuses, Instr.opcode]⟩

/-- RS.CONFIG always answers: one of four statuses with nothing changed, or OK with the new instance installed. -/
theorem exec_rsConfig_cases (n k : Half) (g : Byte) (s : State) :
    (n.toNat = 0 ∧ exec (.rsConfig n k g) s = .next (s.answer [0x02#8])) ∨
    (n.toNat ≠ 0 ∧ k.toNat = 0 ∧ exec (.rsConfig n k g) s = .next (s.answer [0x03#8])) ∨
    (k.toNat ≠ 0 ∧ 256 < n.toNat ∧ exec (.rsConfig n k g) s = .next (s.answer [0x04#8])) ∨
    (n.toNat ≠ 0 ∧ n.toNat ≤ 256 ∧ n.toNat < k.toNat ∧ exec (.rsConfig n k g) s = .next (s.answer [0x08#8])) ∨
    (1 ≤ k.toNat ∧ k.toNat ≤ n.toNat ∧ n.toNat ≤ 256 ∧ exec (.rsConfig n k g) s =
      .next (State.answer { s with regs := s.regs.install n k g (genpoly n.toNat k.toNat g) } [0x00#8])) := by
  by_cases h1 : n.toNat = 0
  · left
    exact ⟨h1, by rw [exec, execRsConfig, if_pos h1]; rfl⟩
  by_cases h2 : k.toNat = 0
  · right; left
    exact ⟨h1, h2, by rw [exec, execRsConfig, if_neg h1, if_pos h2]; rfl⟩
  by_cases h3 : 256 < n.toNat
  · right; right; left
    exact ⟨h2, h3, by rw [exec, execRsConfig, if_neg h1, if_neg h2, Config.nMax, if_pos h3]; rfl⟩
  by_cases h4 : n.toNat < k.toNat
  · right; right; right; left
    exact ⟨h1, by omega, h4, by rw [exec, execRsConfig, if_neg h1, if_neg h2, Config.nMax, if_neg h3, if_pos h4]; rfl⟩
  · right; right; right; right
    refine ⟨by omega, by omega, by omega, ?_⟩
    rw [exec, execRsConfig, if_neg h1, if_neg h2, Config.nMax, if_neg h3, if_neg h4]
    rfl

/-- Everything a command can do: answer with one of its statuses, nothing else changed; or, RS.CONFIG with operands that pass the tests of
R132, install a new instance and answer OK. -/
theorem exec_next {i : Instr} {s t : State} (h : exec i s = .next t) :
    (∃ r : Response, t = s.answer r.bytes ∧ r.statusOf ∈ opcodeStatuses i.opcode) ∨
    (∃ n k g, i = .rsConfig n k g ∧ 1 ≤ k.toNat ∧ k.toNat ≤ n.toNat ∧ n.toNat ≤ 256 ∧
      t = State.answer { s with regs := s.regs.install n k g (genpoly n.toNat k.toNat g) } [0x00#8]) := by
  by_cases hi : i.opcode = .rsConfig
  · cases i with
    | rsConfig n k g =>
      rcases exec_rsConfig_cases n k g s with ⟨-, he⟩ | ⟨-, -, he⟩ | ⟨-, -, he⟩ | ⟨-, -, -, he⟩ | ⟨h1, h2, h3, he⟩
      · exact .inl ⟨.status .tooFewNumbers, Host.Outcome.next.inj (h.symm.trans he), by simp [Response.statusOf, opcodeStatuses, Instr.opcode]⟩
      · exact .inl ⟨.status .tooFewParity, Host.Outcome.next.inj (h.symm.trans he), by simp [Response.statusOf, opcodeStatuses, Instr.opcode]⟩
      · exact .inl ⟨.status .tooManyNumbers, Host.Outcome.next.inj (h.symm.trans he), by simp [Response.statusOf, opcodeStatuses, Instr.opcode]⟩
      · exact .inl ⟨.status .range, Host.Outcome.next.inj (h.symm.trans he), by simp [Response.statusOf, opcodeStatuses, Instr.opcode]⟩
      · exact .inr ⟨n, k, g, rfl, h1, h2, h3, Host.Outcome.next.inj (h.symm.trans he)⟩
    | _ => simp [Instr.opcode] at hi
  · exact .inl (exec_next_of_not_config hi h)

/-! ### One step -/

/-- Taking a frame just presented is running it where it was presented. -/
theorem step_present (s : State) (f : Frame) : step (s.present f) = runFrame f s := rfl

theorem answers_iff (s : State) (f r : Frame) : Answers s f r ↔ runFrame f s = .next (s.answer r) := Iff.rfl

theorem runFrame_of_decode {f : Frame} {i : Instr} (h : decode f = .ok i) (s : State) : runFrame f s = exec i s := by
  rw [runFrame, h]

theorem runFrame_of_error {f : Frame} {e : DecodeError} (h : decode f = .error e) (s : State) :
    runFrame f s = .next (s.answer [0x07#8]) := by
  rw [runFrame, h]
  rfl

/-- A command that answers in `exec` answers its frame at the port. -/
theorem answers_of_exec {f r : Frame} {i : Instr} {s : State} (hd : decode f = .ok i)
    (he : exec i s = .next (s.answer r)) : Answers s f r := (runFrame_of_decode hd s).trans he

theorem answers_of_wrong_length {o : Opcode} {rest : Frame} (h : operandsOf o rest = none) (s : State) :
    Answers s (o.byte :: rest) [0x07#8] := runFrame_of_error (decode_of_wrong_length h) s

/-- A command whose operands have one length refuses every other (R57). -/
theorem refusesOtherLengths (o : Opcode) (n : Nat)
    (h : ∀ rest i, operandsOf o rest = some i → rest.length + 1 = n) : RefusesOtherLengths o.byte n := by
  intro s args hl
  cases ho : operandsOf o args with
  | none => exact answers_of_wrong_length ho s
  | some i => exact absurd (h args i ho) hl

/-- Two answers to one frame from one state are the same answer. -/
theorem answer_injective {s : State} {r r' : Frame}
    (h : (Host.Outcome.next (s.answer r) : Host.Outcome State Fault Refusal) = .next (s.answer r')) : r = r' := by
  have := congrArg State.responses (Host.Outcome.next.inj h)
  simpa using this

/-- Everything a step can do: nothing, with no input waiting; run the command of a well-formed frame; answer a
malformed frame; or reset. -/
theorem step_next {s t : State} (h : step s = .next t) :
    (s.inputs = [] ∧ t = s) ∨
    (∃ f rest i, s.inputs = .command f :: rest ∧ decode f = .ok i ∧ exec i (s.withInputs rest) = .next t) ∨
    (∃ f rest e, s.inputs = .command f :: rest ∧ decode f = .error e ∧ t = (s.withInputs rest).answer [0x07#8]) ∨
    (∃ rest, (s.inputs = .reset :: rest ∨ ∃ f, s.inputs = .commandCutByReset f :: rest) ∧
      t = (s.withInputs rest).hostReset) := by
  rw [step, takeNext] at h
  split at h
  · next hi => exact .inl ⟨hi, (Host.Outcome.next.inj h).symm⟩
  · next input rest hi =>
    cases input with
    | command f =>
      simp only [takeInput] at h
      cases hd : decode f with
      | ok i =>
        rw [runFrame_of_decode hd] at h
        exact .inr (.inl ⟨f, rest, i, hi, hd, h⟩)
      | error e =>
        rw [runFrame_of_error hd] at h
        exact .inr (.inr (.inl ⟨f, rest, e, hi, hd, (Host.Outcome.next.inj h).symm⟩))
    | reset => exact .inr (.inr (.inr ⟨rest, .inl hi, (Host.Outcome.next.inj h).symm⟩))
    | commandCutByReset f =>
      exact .inr (.inr (.inr ⟨rest, .inr ⟨f, hi⟩, (Host.Outcome.next.inj h).symm⟩))

end Sys2Proof.Machine
end

