-- ==== Sys2Proof/Tests/Slice0.lean ====
section
/-! SUPPORT. The model's own tests: ill-formed terms that the well-formedness check refuses, frames written out from the
spec's encodings and what they decode to, single steps with the spec's own examples (95_test_vectors.md and the rules'
`Example` lines), and for every obligation that has hypotheses a state and operands that meet them. -/

-- The kernel decides these theorems; one after the other they need few threads.
set_option Elab.async false

namespace Sys2Proof.Tests

open Sys2Proof.Machine

/-! ### Helpers -/

/-- A state with the codec instance (7, 4, 0x03) of the spec's examples, installed in the reset state. -/
def demo : State := { State.reset with regs := Regs.reset.install 7#16 4#16 0x03#8 (genpoly 7 4 0x03#8) }

/-- A state with the codec instance (7, 3, 0x03): the degree of the generator polynomial exceeds k. -/
def demoWide : State := { State.reset with regs := Regs.reset.install 7#16 3#16 0x03#8 (genpoly 7 3 0x03#8) }

/-- A state with the codec instance (7, 7, 0x03): no root. -/
def demoEqual : State := { State.reset with regs := Regs.reset.install 7#16 7#16 0x03#8 (genpoly 7 7 0x03#8) }

/-- A state with the codec instance (7, 4, 0x00): the zero generator element. -/
def demoZero : State := { State.reset with regs := Regs.reset.install 7#16 4#16 0x00#8 (genpoly 7 4 0x00#8) }

/-- A state with the largest instance, (256, 1, 0x03). -/
def demoLargest : State := { State.reset with regs := Regs.reset.install 256#16 1#16 0x03#8 (genpoly 256 1 0x03#8) }

theorem reset_inv : State.reset.Inv := Regs.reset_inv

theorem demo_inv : demo.Inv := Regs.install_inv _ Regs.reset_inv _ _ _ (by decide) (by decide) (by decide)

theorem demoWide_inv : demoWide.Inv := Regs.install_inv _ Regs.reset_inv _ _ _ (by decide) (by decide) (by decide)

theorem demoEqual_inv : demoEqual.Inv := Regs.install_inv _ Regs.reset_inv _ _ _ (by decide) (by decide) (by decide)

theorem demoZero_inv : demoZero.Inv := Regs.install_inv _ Regs.reset_inv _ _ _ (by decide) (by decide) (by decide)

theorem demoLargest_inv : demoLargest.Inv :=
  Regs.install_inv _ Regs.reset_inv _ _ _ (by decide) (by decide) (by decide)

/-- The response to a frame sent in state `s`, with the registers after it. -/
def reply (s : State) (f : Frame) : Option (Frame × Regs) :=
  match step (s.present f) with
  | .next t => t.responses.getLast?.map (fun r => (r, t.regs))
  | .fault _ => none
  | .refused _ => none

/-- The frame `f` is answered `r` in state `s`, and the registers stay as they were. -/
abbrev replies (s : State) (f r : Frame) : Prop := reply s f = some (r, s.regs)

/-! ### Well-formedness refuses what no frame can carry -/

theorem fitsLength_replicate (n : Nat) (c : Byte) : fitsLength (List.replicate n c) = decide (n ≤ 65535) := by
  simp only [fitsLength, Config.maxLen, List.length_replicate]

theorem test_wf_polyEval_too_long : (Instr.polyEval 0x00#8 (List.replicate 65536 0x01#8)).wf = false := by
  rw [Instr.wf, fitsLength_replicate]
  rfl

theorem test_wf_polyMul_left_too_long : (Instr.polyMul (List.replicate 65536 0x01#8) []).wf = false := by
  rw [Instr.wf, fitsLength_replicate]
  rfl

theorem test_wf_polyMul_right_too_long : (Instr.polyMul [] (List.replicate 65536 0x01#8)).wf = false := by
  rw [Instr.wf, fitsLength_replicate]
  rfl

theorem test_wf_rsEncode_too_long : (Instr.rsEncode (List.replicate 65536 0x01#8)).wf = false := by
  rw [Instr.wf, fitsLength_replicate]
  rfl

theorem test_wf_rsCheck_too_long : (Instr.rsCheck (List.replicate 65536 0x01#8)).wf = false := by
  rw [Instr.wf, fitsLength_replicate]
  rfl

theorem test_wf_longest_sequence : (Instr.rsEncode (List.replicate 65535 0x01#8)).wf = true := by
  rw [Instr.wf, fitsLength_replicate]
  rfl

/-! ### Decoding: frames written out from R47 and R50 (and the examples of R60 and of the command rules) -/

theorem test_decode_gfZero : decode [0x00#8] = .ok .gfZero := rfl

theorem test_decode_gfOne : decode [0x01#8] = .ok .gfOne := rfl

theorem test_decode_gfAdd : decode [0x02#8, 0x57#8, 0x83#8] = .ok (.gfAdd 0x57#8 0x83#8) := rfl

theorem test_decode_gfSub : decode [0x03#8, 0x57#8, 0x83#8] = .ok (.gfSub 0x57#8 0x83#8) := rfl

theorem test_decode_gfMul : decode [0x04#8, 0x57#8, 0x83#8] = .ok (.gfMul 0x57#8 0x83#8) := rfl

theorem test_decode_gfDiv : decode [0x05#8, 0xC1#8, 0x83#8] = .ok (.gfDiv 0xC1#8 0x83#8) := rfl

theorem test_decode_gfInv : decode [0x06#8, 0x53#8] = .ok (.gfInv 0x53#8) := rfl

theorem test_decode_gfExp : decode [0x07#8, 0x03#8, 0x00#8, 0xFF#8] = .ok (.gfExp 0x03#8 255#16) := rfl

theorem test_decode_gfNeg : decode [0x08#8, 0x9C#8] = .ok (.gfNeg 0x9C#8) := rfl

theorem test_decode_gfEq : decode [0x09#8, 0x07#8, 0x08#8] = .ok (.gfEq 0x07#8 0x08#8) := rfl

theorem test_decode_gfFromb : decode [0x0A#8, 0xA7#8] = .ok (.gfFromb 0xA7#8) := rfl

theorem test_decode_tblLog : decode [0x10#8, 0x02#8] = .ok (.tblLog 0x02#8) := rfl

theorem test_decode_tblAlog : decode [0x11#8, 0x01#8, 0x2C#8] = .ok (.tblAlog 300#16) := rfl

theorem test_decode_tblInv : decode [0x12#8, 0x53#8] = .ok (.tblInv 0x53#8) := rfl

theorem test_decode_polyEval : decode [0x20#8, 0x0A#8, 0x00#8, 0x03#8, 0x01#8, 0x02#8, 0x03#8] = .ok (.polyEval 0x0A#8 [0x01#8, 0x02#8, 0x03#8]) := rfl

theorem test_decode_polyMul : decode [0x21#8, 0x00#8, 0x02#8, 0x00#8, 0x01#8, 0x01#8, 0x03#8, 0x09#8] = .ok (.polyMul [0x01#8, 0x03#8] [0x09#8]) := rfl

theorem test_decode_rsConfig : decode [0x30#8, 0x01#8, 0x00#8, 0x00#8, 0x04#8, 0x03#8] = .ok (.rsConfig 256#16 4#16 0x03#8) := rfl

theorem test_decode_rsEncode : decode [0x31#8, 0x00#8, 0x03#8, 0x01#8, 0x02#8, 0x03#8] = .ok (.rsEncode [0x01#8, 0x02#8, 0x03#8]) := rfl

theorem test_decode_rsCheck : decode [0x32#8, 0x00#8, 0x00#8] = .ok (.rsCheck []) := rfl

theorem test_decode_rsGenrd : decode [0x33#8] = .ok .rsGenrd := rfl

theorem test_decode_rsStat : decode [0x34#8] = .ok .rsStat := rfl

/-! Frames that spell no command (R57). -/

theorem test_refuse_empty : decode [] = .error .emptyFrame := rfl

theorem test_refuse_unassigned_0B : decode [0x0B#8] = .error .unknownOpcode := rfl

theorem test_refuse_unassigned_13 : decode [0x13#8, 0x00#8] = .error .unknownOpcode := rfl

theorem test_refuse_unassigned_22 : decode [0x22#8] = .error .unknownOpcode := rfl

theorem test_refuse_unassigned_35 : decode [0x35#8] = .error .unknownOpcode := rfl

theorem test_refuse_unassigned_FF : decode [0xFF#8] = .error .unknownOpcode := rfl

theorem test_refuse_gfMul_short : decode [0x04#8, 0x57#8] = .error .wrongLength := rfl

theorem test_refuse_gfMul_long : decode [0x04#8, 0x57#8, 0x83#8, 0x00#8] = .error .wrongLength := rfl

theorem test_refuse_rsEncode_no_length : decode [0x31#8, 0x00#8] = .error .wrongLength := rfl

theorem test_refuse_rsEncode_short : decode [0x31#8, 0x00#8, 0x03#8, 0x01#8, 0x02#8] = .error .wrongLength := rfl

theorem test_refuse_polyMul_trailing : decode [0x21#8, 0x00#8, 0x01#8, 0x00#8, 0x01#8, 0x01#8, 0x01#8, 0x01#8] = .error .wrongLength := rfl

/-! The words of spec/opcode_table.json: the table gives every row the eight bits of its opcode, its operand bytes are
zeros. -/

theorem test_tableWord_gfMul : decodeTableWord 8 0x04 = some (.gfMul 0x00#8 0x00#8) := rfl

theorem test_tableWord_polyMul : decodeTableWord 8 0x21 = some (.polyMul [] []) := rfl

theorem test_tableWord_rsConfig : decodeTableWord 8 0x30 = some (.rsConfig 0#16 0#16 0x00#8) := rfl

theorem test_tableWord_rsStat : decodeTableWord 8 0x34 = some .rsStat := rfl

theorem test_tableWord_whole_frame : decodeTableWord 24 0x835704 = some (.gfMul 0x57#8 0x83#8) := rfl

theorem test_tableWord_unassigned : decodeTableWord 8 0x0B = none := rfl

theorem test_fetchWord_runs : step (State.reset.withFetchWord 24 0x835704) = exec (.gfMul 0x57#8 0x83#8) State.reset := rfl

theorem test_fetchWord_short_row : step (State.reset.withFetchWord 8 0x31) = exec (.rsEncode []) State.reset := rfl

/-! ### Single steps: the examples of the command rules and of 95_test_vectors.md -/

theorem test_step_gfZero : replies State.reset [0x00#8] [0x00#8, 0x00#8] := by decide +kernel

theorem test_step_gfOne : replies State.reset [0x01#8] [0x00#8, 0x01#8] := by decide +kernel

theorem test_step_gfAdd : replies State.reset [0x02#8, 0x57#8, 0x83#8] [0x00#8, 0xD4#8] := by decide +kernel

theorem test_step_gfSub : replies State.reset [0x03#8, 0x57#8, 0x83#8] [0x00#8, 0xD4#8] := by decide +kernel

theorem test_step_gfMul : replies State.reset [0x04#8, 0x57#8, 0x83#8] [0x00#8, 0xC1#8] := by decide +kernel

theorem test_step_gfMul_second_copy : replies State.reset [0x04#8, 0x80#8, 0x02#8] [0x00#8, 0x1B#8] := by decide +kernel

theorem test_step_gfDiv : replies State.reset [0x05#8, 0xC1#8, 0x83#8] [0x00#8, 0x57#8] := by decide +kernel

theorem test_step_gfDiv_by_zero : replies State.reset [0x05#8, 0x00#8, 0x00#8] [0x01#8] := by decide +kernel

theorem test_step_gfInv : replies State.reset [0x06#8, 0x53#8] [0x00#8, 0xCA#8] := by decide +kernel

theorem test_step_gfInv_zero : replies State.reset [0x06#8, 0x00#8] [0x01#8] := by decide +kernel

theorem test_step_gfExp : replies State.reset [0x07#8, 0x02#8, 0x00#8, 0x08#8] [0x00#8, 0x1B#8] := by decide +kernel

theorem test_step_gfExp_zero_zero : replies State.reset
    [0x07#8, 0x00#8, 0x00#8, 0x00#8]
    [0x00#8, 0x01#8] := by decide +kernel

theorem test_step_gfNeg : replies State.reset [0x08#8, 0x9C#8] [0x00#8, 0x9C#8] := by decide +kernel

theorem test_step_gfEq : replies State.reset [0x09#8, 0x07#8, 0x07#8] [0x00#8, 0x01#8] := by decide +kernel

theorem test_step_gfEq_differ : replies State.reset [0x09#8, 0x00#8, 0x01#8] [0x00#8, 0x00#8] := by decide +kernel

theorem test_step_gfFromb : replies State.reset [0x0A#8, 0xA7#8] [0x00#8, 0xA7#8] := by decide +kernel

theorem test_step_tblLog : replies State.reset [0x10#8, 0x02#8] [0x00#8, 0x19#8] := by decide +kernel

theorem test_step_tblLog_zero : replies State.reset [0x10#8, 0x00#8] [0x01#8] := by decide +kernel

theorem test_step_tblAlog_last : replies State.reset [0x11#8, 0x01#8, 0xFD#8] [0x00#8, 0xF6#8] := by decide +kernel

theorem test_step_tblAlog_first_absent : replies State.reset [0x11#8, 0x01#8, 0xFE#8] [0x08#8] := by decide +kernel

theorem test_step_tblInv : replies State.reset [0x12#8, 0x53#8] [0x00#8, 0xCA#8] := by decide +kernel

theorem test_step_tblInv_zero : replies State.reset [0x12#8, 0x00#8] [0x01#8] := by decide +kernel

theorem test_step_polyEval : replies State.reset
    [0x20#8, 0x0A#8, 0x00#8, 0x03#8, 0x01#8, 0x01#8, 0x01#8]
    [0x00#8, 0x4F#8] := by decide +kernel

theorem test_step_polyEval_empty : replies State.reset
    [0x20#8, 0x0A#8, 0x00#8, 0x00#8]
    [0x00#8, 0x00#8] := by decide +kernel

theorem test_step_polyMul : replies State.reset
    [0x21#8, 0x00#8, 0x02#8, 0x00#8, 0x02#8, 0x01#8, 0x03#8, 0x01#8, 0x09#8]
    [0x00#8, 0x00#8, 0x03#8, 0x01#8, 0x0A#8, 0x1B#8] := by decide +kernel

theorem test_step_polyMul_empty : replies State.reset
    [0x21#8, 0x00#8, 0x00#8, 0x00#8, 0x01#8, 0x05#8]
    [0x00#8, 0x00#8, 0x01#8, 0x00#8] := by decide +kernel

theorem test_step_rsConfig_few : replies demo
    [0x30#8, 0x00#8, 0x00#8, 0x00#8, 0x04#8, 0x03#8]
    [0x02#8] := by decide +kernel

theorem test_step_rsEncode : replies demo
    [0x31#8, 0x00#8, 0x03#8, 0x01#8, 0x02#8, 0x03#8]
    [0x00#8, 0x00#8, 0x07#8, 0x01#8, 0x02#8, 0x03#8, 0x00#8, 0xEF#8, 0x3C#8, 0x3A#8] := by decide +kernel

theorem test_step_rsEncode_wide : replies demoWide
    [0x31#8, 0x00#8, 0x03#8, 0x01#8, 0x02#8, 0x03#8]
    [0x00#8, 0x00#8, 0x06#8, 0x01#8, 0x02#8, 0xDF#8, 0x8F#8, 0xEA#8, 0x38#8] := by decide +kernel

theorem test_step_rsCheck : replies demo
    [0x32#8, 0x00#8, 0x07#8, 0x01#8, 0x02#8, 0x03#8, 0x00#8, 0xEF#8, 0x3C#8, 0x3A#8]
    [0x00#8, 0x01#8] := by decide +kernel

theorem test_step_rsCheck_corrupt : replies demo
    [0x32#8, 0x00#8, 0x07#8, 0x01#8, 0x02#8, 0x03#8, 0x00#8, 0xEF#8, 0x3C#8, 0x3B#8]
    [0x00#8, 0x00#8] := by decide +kernel

theorem test_step_rsGenrd : replies demo
    [0x33#8]
    [0x00#8, 0x00#8, 0x04#8, 0x01#8, 0x09#8, 0x2D#8, 0x55#8] := by decide +kernel

theorem test_step_rsGenrd_unconfigured : replies State.reset [0x33#8] [0x06#8] := by decide +kernel

theorem test_step_rsStat : replies demo
    [0x34#8]
    [0x00#8, 0x01#8, 0x00#8, 0x07#8, 0x00#8, 0x04#8, 0x03#8] := by decide +kernel

theorem test_step_rsStat_reset : replies State.reset
    [0x34#8]
    [0x00#8, 0x00#8, 0x00#8, 0x00#8, 0x00#8, 0x00#8, 0x00#8] := by decide +kernel

theorem test_step_malformed_before_unconfigured : replies State.reset
    [0x31#8, 0x00#8, 0x03#8, 0x01#8]
    [0x07#8] := by decide +kernel

/-- R131's example: GEN and GEN_LEN after RS.CONFIG 7, 4, 0x03. -/
theorem test_step_rsConfig : reply State.reset [0x30#8, 0x00#8, 0x07#8, 0x00#8, 0x04#8, 0x03#8] =
    some ([0x00#8], ⟨true, 7#9, 4#9, 0x03#8, 4#9, [(0, 0x01#8), (1, 0x09#8), (2, 0x2D#8), (3, 0x55#8)]⟩) := by
  decide +kernel

/-- RS.STAT's example after RS.CONFIG 256, 1, 0x03 (R141). -/
theorem test_stat_largest : exec .rsStat demoLargest =
    .next (demoLargest.answer [0x00#8, 0x01#8, 0x01#8, 0x00#8, 0x00#8, 0x01#8, 0x03#8]) := rfl

/-- E2, E3: the functions without a command, with a divisor that is not monic. -/
theorem test_padd_self : padd [0x01#8, 0x02#8, 0x03#8] [0x01#8, 0x02#8, 0x03#8] = [0x00#8] := by decide +kernel

theorem test_pdivrem_self : pdivrem [0x05#8, 0x00#8, 0x09#8] [0x05#8, 0x00#8, 0x09#8] = some ([0x01#8], [0x00#8]) := by
  decide +kernel

/-- Reset with a command outstanding: no response to it, the registers as after reset (R171). -/
theorem test_reset_cuts : step { demo with inputs := [.commandCutByReset [0x34#8], .command [0x33#8]] } =
    .next { State.reset with inputs := [.command [0x33#8]] } := rfl

/-! ### Witnesses: for every obligation with hypotheses, a state and operands that meet them

Each is named after its obligation and gives, clause by clause, values that meet the hypotheses together, at the ends of
their ranges. -/

/-- A sequence of 65535 bytes, the longest a length field can announce. -/
def longest : List Byte := List.replicate 65535 0x01#8

theorem length_longest : longest.length = 65535 := List.length_replicate

theorem longest_ne_nil : longest ≠ [] := fun h => by
  have := length_longest
  rw [h] at this
  exact absurd this (by decide)

theorem witness_DecodeInvertsEncode : (Instr.rsEncode longest).wf = true ∧ (Instr.rsCheck []).wf = true :=
  ⟨test_wf_longest_sequence, rfl⟩

theorem witness_EncodeInvertsDecode : decode [0x07#8, 0x03#8, 0xFF#8, 0xFF#8] = .ok (.gfExp 0x03#8 65535#16) := rfl

theorem witness_OpcodeMapSpellsTheCommands :
    (65535#16 : Half).toNat = 256 * (0xFF#8 : Byte).toNat + (0xFF#8 : Byte).toNat ∧
    (0#16 : Half).toNat = 256 * (0x00#8 : Byte).toNat + (0x00#8 : Byte).toNat ∧
    longest.length = 256 * (0xFF#8 : Byte).toNat + (0xFF#8 : Byte).toNat ∧
    ([] : List Byte).length = 256 * (0x00#8 : Byte).toNat + (0x00#8 : Byte).toNat :=
  ⟨rfl, rfl, by rw [length_longest]; rfl, rfl⟩

/-- The unassigned opcodes at the ends of their four ranges, and a frame that is too long. -/
theorem witness_MalformedFramesAnswerIllegalCommand :
    (0x0B ≤ (0x0B#8 : Byte).toNat ∧ (0x0B#8 : Byte).toNat ≤ 0x0F) ∧
    (0x0B ≤ (0x0F#8 : Byte).toNat ∧ (0x0F#8 : Byte).toNat ≤ 0x0F) ∧
    (0x13 ≤ (0x13#8 : Byte).toNat ∧ (0x13#8 : Byte).toNat ≤ 0x1F) ∧
    (0x13 ≤ (0x1F#8 : Byte).toNat ∧ (0x1F#8 : Byte).toNat ≤ 0x1F) ∧
    (0x22 ≤ (0x22#8 : Byte).toNat ∧ (0x22#8 : Byte).toNat ≤ 0x2F) ∧
    (0x22 ≤ (0x2F#8 : Byte).toNat ∧ (0x2F#8 : Byte).toNat ≤ 0x2F) ∧
    0x35 ≤ (0x35#8 : Byte).toNat ∧ 0x35 ≤ (0xFF#8 : Byte).toNat ∧
    requiredLength [0x04#8, 0x57#8, 0x83#8, 0x00#8] ≠ some 4 ∧ requiredLength [0x31#8, 0x00#8] ≠ some 2 := by decide

theorem witness_SequenceResponseCarriesItsLength : longest.length ≤ 65535 := by rw [length_longest]

theorem witness_StepRunsDecodedInstruction : (demo.present [0x34#8]).inputs = .command [0x34#8] :: demo.inputs ∧
    decode [0x34#8] = .ok .rsStat := ⟨rfl, rfl⟩

theorem witness_IdleCoreChangesNothing : demo.inputs = [] := rfl

/-- The last index ALOG has. -/
theorem witness_ResetStateIsAsTabulated : (0x01#8 : Byte) ≠ 0x00#8 ∧
    256 * (0x01#8 : Byte).toNat + (0xFD#8 : Byte).toNat = 509 := by decide

theorem witness_HostResetIsTheOnlyWayBack :
    ({ demo with inputs := [.reset] } : State).inputs = .reset :: [] ∧
    ({ demo with inputs := [.commandCutByReset [0x33#8]] } : State).inputs = .commandCutByReset [0x33#8] :: [] ∧
    step { demo with inputs := [.reset] } = .next State.reset ∧ demo.regs.cfgValid = true ∧
    State.reset.regs.cfgValid = false := ⟨rfl, rfl, rfl, rfl, rfl⟩

theorem witness_EveryFrameGetsExactlyOneResponse : (demo.present []).Inv ∧
    (demo.present []).inputs = .command [] :: demo.inputs := ⟨demo_inv, rfl⟩

theorem witness_EveryStepCompletes : demo.Inv ∧ State.reset.Inv := ⟨demo_inv, reset_inv⟩

theorem witness_StepKeepsTheRegisterInvariant : (demo.present [0x33#8]).Inv ∧
    step (demo.present [0x33#8]) =
      .next (demo.answer [0x00#8, 0x00#8, 0x04#8, 0x01#8, 0x09#8, 0x2D#8, 0x55#8]) := ⟨demo_inv, rfl⟩

/-- A run of one step from reset that configures the core. -/
theorem witness_ValidConfigurationHasItsGenerator :
    Host.Core.run Sys2Proof.core 1
      { State.reset with inputs := [.command [0x30#8, 0x00#8, 0x07#8, 0x00#8, 0x04#8, 0x03#8]] } =
      .next (demo.answer [0x00#8]) ∧ (demo.answer [0x00#8]).regs.cfgValid = true := ⟨rfl, rfl⟩

theorem witness_NonOkStatusChangesNoRegister :
    (demo.present [0x05#8, 0x01#8, 0x00#8]).inputs = .command [0x05#8, 0x01#8, 0x00#8] :: [] ∧
    step (demo.present [0x05#8, 0x01#8, 0x00#8]) = .next (demo.answer [0x01#8]) ∧
    (demo.answer [0x01#8]).responses = demo.responses ++ [[0x01#8]] ∧
    [0x01#8].head? ≠ some 0x00#8 := ⟨rfl, rfl, rfl, by decide⟩

theorem witness_StatusesAreThoseOfTheTable :
    step (demo.present [0x34#8]) = .next (demo.answer [0x00#8, 0x01#8, 0x00#8, 0x07#8, 0x00#8, 0x04#8, 0x03#8]) ∧
    decode [0x34#8] = .ok .rsStat ∧ step (demo.present [0xFF#8]) = .next (demo.answer [0x07#8]) ∧
    ∀ i, decode [0xFF#8] ≠ .ok i := ⟨rfl, rfl, rfl, fun i h => by simp [decode, opcodeOf, Opcode.all, Opcode.byte] at h⟩

theorem witness_OnlyConfigAndResetWriteRegisters :
    step (State.reset.present [0x30#8, 0x00#8, 0x07#8, 0x00#8, 0x04#8, 0x03#8]) = .next (demo.answer [0x00#8]) ∧
    (demo.answer [0x00#8]).regs ≠ State.reset.regs ∧
    step { demo with inputs := [.reset] } = .next State.reset ∧ State.reset.regs ≠ demo.regs :=
  ⟨rfl, by decide +kernel, rfl, by decide +kernel⟩

theorem witness_ResponsesStayLegal : (demo.answer [0x00#8]).Inv ∧
    (∀ r ∈ (demo.answer [0x00#8]).responses, LegalResponse r) ∧
    step ((demo.answer [0x00#8]).present [0x00#8]) = .next ((demo.answer [0x00#8]).answer [0x00#8, 0x00#8]) := by
  refine ⟨demo_inv, ?_, rfl⟩
  intro r hr
  have : r = [0x00#8] := by simpa [demo] using hr
  exact .inl ⟨0x00#8, this, by decide⟩

theorem witness_ResponseDependsOnFrameAndRegisters : demo.Inv ∧ demo.regs = (demo.answer [0x07#8]).regs :=
  ⟨demo_inv, rfl⟩

theorem witness_ReadingCommandsCommute : demo.Inv ∧ [0x33#8].head? ≠ some 0x30#8 ∧
    ([] : Frame).head? ≠ some 0x30#8 := ⟨demo_inv, by decide, by decide⟩

theorem witness_ArithmeticIgnoresTheConfiguration : [0x04#8, 0x57#8, 0x83#8].head? = some 0x04#8 ∧
    (0x04#8 : Byte).toNat < 0x30 ∧ [0x2F#8].head? = some 0x2F#8 ∧ (0x2F#8 : Byte).toNat < 0x30 := by decide

theorem witness_TablesHoldPowersOfTheGenerator : 509 < 510 ∧ (0x01#8 : Byte) ≠ 0x00#8 ∧ 254 ≤ 254 ∧
    clmulPow Config.tableGen 254 = 0xF6#8 := by decide +kernel

theorem witness_TableLoopBuildsTheListings : 0 < 255 ∧ 254 < 255 := by decide

theorem witness_TableContentsAndIndexBounds : (0x01#8 : Byte) ≠ 0x00#8 ∧ (0xFF#8 : Byte) ≠ 0x00#8 ∧ 254 < 255 ∧
    509 < 510 ∧ invAt 0x01#8 = 0x01#8 := by decide +kernel

/-- TABLE_GEN itself is an element of order 255. -/
theorem witness_FieldResultsIgnoreTheTableGenerator :
    (∀ a : Byte, a ≠ 0x00#8 → ∃ e, e ≤ 254 ∧ clmulPow 0x03#8 e = a) ∧ 254 ≤ 254 := by
  have h : ∀ a : Byte, a ≠ 0x00#8 → clmulPow 0x03#8 (logAt a).toNat = a := by decide +kernel
  exact ⟨fun a ha => ⟨_, logAt_le a ha, h a ha⟩, le_rfl⟩

theorem witness_FieldLawsHold : (0x01#8 : Byte) ≠ 0x00#8 ∧ 0 < 1 ∧ gfMul 0x00#8 0x05#8 = 0x00#8 := by decide

theorem witness_ConstantsAndIdentitiesAnswer : ([] : Frame).length + 1 ≠ 2 ∧ [0x9C#8, 0x00#8].length + 1 ≠ 2 ∧
    [0x00#8].length + 1 ≠ 1 := by decide

theorem witness_AddAndSubAnswerXor : [0x57#8].length + 1 ≠ 3 ∧ [0x57#8, 0x83#8, 0x00#8].length + 1 ≠ 3 := by decide

theorem witness_MulAnswersTheFieldProduct : (0xF6#8 : Byte) ≠ 0x00#8 ∧ [0x57#8].length + 1 ≠ 3 := by decide

theorem witness_DivAnswersTheQuotient : (0x83#8 : Byte) ≠ 0x00#8 ∧ gfInv 0x01#8 = some 0x01#8 ∧
    [0x05#8].length + 1 ≠ 3 := by decide +kernel

theorem witness_InverseCommandsAnswerTheInverse : (0x01#8 : Byte) ≠ 0x00#8 ∧ (0xFF#8 : Byte) ≠ 0x00#8 ∧
    ([] : Frame).length + 1 ≠ 2 := by decide

theorem witness_ExpAnswersThePower : 0 < 1 ∧ (0x02#8 : Byte) ≠ 0x00#8 ∧ [0x02#8].length + 1 ≠ 4 := by decide

theorem witness_EqAnswersByteEquality : (0x00#8 : Byte) ≠ 0x01#8 ∧ [0x00#8].length + 1 ≠ 3 := by decide

theorem witness_TblLogAnswersTheLogarithm : (0x01#8 : Byte) ≠ 0x00#8 ∧ ([] : Frame).length + 1 ≠ 2 := by decide

/-- The last index with an entry and the first without one. -/
theorem witness_TblAlogAnswersTheEntry : (509#16 : Half).toNat < 510 ∧ 510 ≤ (510#16 : Half).toNat ∧
    256 * (0x01#8 : Byte).toNat + (0xFD#8 : Byte).toNat < 510 ∧
    510 ≤ 256 * (0x01#8 : Byte).toNat + (0xFE#8 : Byte).toNat ∧ [0x01#8].length + 1 ≠ 3 := by decide

theorem witness_ConstructionNormalises : (∀ c ∈ [0x00#8, 0x00#8], c = 0x00#8) ∧ (∀ c ∈ ([] : List Byte), c = 0x00#8) ∧
    (0x01#8 : Byte) ≠ 0x00#8 := by decide

theorem witness_PolynomialResultsAreNormalised :
    pdivrem [0x05#8, 0x00#8, 0x09#8] [0x05#8, 0x00#8, 0x09#8] = some ([0x01#8], [0x00#8]) := by decide +kernel

theorem witness_PolynomialAdditionLaws : [0x01#8].length = [0x02#8].length ∧ [0x01#8] ≠ [] := by decide

theorem witness_PolyEvalAnswersTheValue : longest.length = 256 * (0xFF#8 : Byte).toNat + (0xFF#8 : Byte).toNat ∧
    ([] : List Byte).length = 256 * (0x00#8 : Byte).toNat + (0x00#8 : Byte).toNat ∧
    ([] : List Byte).length ≠ 256 * (0x00#8 : Byte).toNat + (0x01#8 : Byte).toNat ∧
    [0x0A#8, 0x00#8].length < 3 := ⟨by rw [length_longest]; rfl, rfl, by decide, by decide⟩

theorem witness_PolynomialProductLaws : pnorm [0x00#8] = [0x00#8] ∧ pnorm [0x01#8, 0x03#8] ≠ [0x00#8] ∧
    pnorm [0x01#8, 0x09#8] ≠ [0x00#8] ∧ 2 < (pmul [0x01#8, 0x03#8] [0x01#8, 0x09#8]).length := by decide +kernel

/-- Lengths that sum to 65536, the longest pair accepted, and to 65537. -/
theorem witness_PolyMulAnswersTheProduct : longest.length + [0x01#8].length ≤ 65536 ∧
    65536 < longest.length + [0x01#8, 0x01#8].length ∧
    longest.length = 256 * (0xFF#8 : Byte).toNat + (0xFF#8 : Byte).toNat ∧
    [0x01#8].length = 256 * (0x00#8 : Byte).toNat + (0x01#8 : Byte).toNat ∧
    [0x01#8].length ≠ (256 * (0x00#8 : Byte).toNat + (0x01#8 : Byte).toNat) +
      (256 * (0x00#8 : Byte).toNat + (0x01#8 : Byte).toNat) ∧
    [0x00#8, 0x01#8, 0x00#8].length < 4 ∧ pnorm ([] : List Byte) = [0x00#8] := by
  rw [length_longest]
  decide

theorem witness_DivisionGivesQuotientAndRemainder : pnorm [0x05#8, 0x00#8, 0x09#8] ≠ [0x00#8] ∧
    (pnorm [0x07#8]).length < (pnorm [0x05#8, 0x09#8]).length ∧ (0x05#8 : Byte) ≠ 0x00#8 ∧
    Normalised [0x01#8] ∧ Normalised [0x00#8] ∧ padd (pmul [0x01#8] [0x05#8, 0x09#8]) [0x00#8] = pnorm [0x05#8, 0x09#8] ∧
    pnorm [0x00#8, 0x00#8] = [0x00#8] :=
  ⟨by decide, by decide, by decide, .inr ⟨_, _, rfl, by decide⟩, .inl rfl, by decide +kernel, by decide⟩

/-- The smallest k with the largest n, and k = n. -/
theorem witness_GeneratorPolynomialShape : 1 ≤ 1 ∧ 1 ≤ 256 ∧ 256 ≤ 256 ∧ 1 ≤ 255 ∧ 255 ≤ 256 - 1 ∧ 7 ≤ 7 ∧
    [3, 1, 2].Perm (List.range' 1 (7 - 4)) := by decide

/-- The element 0x02 has order 51. -/
theorem witness_AnyGeneratorElementIsAccepted : 1 ≤ (256#16 : Half).toNat ∧ (256#16 : Half).toNat ≤ 256 ∧
    gfExp 0x02#8 51 = 0x01#8 := by decide +kernel

/-- Each test of RS.CONFIG at the value where it begins to fail, and the operands at the edge of acceptance. -/
theorem witness_ConfigTestsInOrder : (0#16 : Half).toNat = 0 ∧ ((1#16 : Half).toNat ≠ 0 ∧ (0#16 : Half).toNat = 0) ∧
    ((1#16 : Half).toNat ≠ 0 ∧ 256 < (257#16 : Half).toNat) ∧
    ((256#16 : Half).toNat ≠ 0 ∧ (256#16 : Half).toNat ≤ 256 ∧ (256#16 : Half).toNat < (257#16 : Half).toNat) ∧
    (1 ≤ (256#16 : Half).toNat ∧ (256#16 : Half).toNat ≤ (256#16 : Half).toNat ∧ (256#16 : Half).toNat ≤ 256) ∧
    [0x00#8, 0x07#8].length + 1 ≠ 6 := by decide

theorem witness_ConfigInstallsTheInstance : demo.regs.gen.wf ∧ 1 ≤ (1#16 : Half).toNat ∧
    (1#16 : Half).toNat ≤ (256#16 : Half).toNat ∧ (256#16 : Half).toNat ≤ 256 ∧ (0#16 : Half).toNat = 0 ∧
    (3#16 : Half).toNat < (4#16 : Half).toNat ∧ 256 < (257#16 : Half).toNat :=
  ⟨Regs.Inv.genWf demo_inv, by decide, by decide, by decide, by decide, by decide, by decide⟩

/-- The registers of `demo` after RS.CONFIG 7, 6, 0x03: a generator polynomial of two bytes in place of four. -/
def shorterRegs : Regs := demo.regs.install 7#16 6#16 0x03#8 (genpoly 7 6 0x03#8)

/-- A reconfiguration to a shorter polynomial: index 3 lies at or above the new GEN_LEN and held 0x55. -/
theorem witness_ConfigInstallsTheInstance_shorter : demo.regs.gen.wf ∧ 1 ≤ (6#16 : Half).toNat ∧
    (6#16 : Half).toNat ≤ (7#16 : Half).toNat ∧ (7#16 : Half).toNat ≤ 256 ∧
    exec (.rsConfig 7#16 6#16 0x03#8) demo = .next (State.answer { demo with regs := shorterRegs } [0x00#8]) ∧
    demo.regs.genLen = 4#9 ∧ shorterRegs.genLen = 2#9 ∧ shorterRegs.genLen.toNat ≤ 3 ∧
    demo.regs.gen.read 3 = 0x55#8 ∧ shorterRegs.gen.read 3 = 0x55#8 :=
  ⟨Regs.Inv.genWf demo_inv, by decide, by decide, by decide, rfl, by decide +kernel, by decide +kernel,
    by decide +kernel, by decide +kernel, by decide +kernel⟩

theorem demo_accepts (m : List Byte) (h : m ≠ []) (hl : m.length ≤ 65531) : demo.regs.accepts m :=
  ⟨rfl, h, by rw [show demo.regs.cfgK.toNat = 4 from rfl]; omega⟩

theorem demoWide_accepts (m : List Byte) (h : m ≠ []) (hl : m.length ≤ 65532) : demoWide.regs.accepts m :=
  ⟨rfl, h, by rw [show demoWide.regs.cfgK.toNat = 3 from rfl]; omega⟩

/-- Each clause of RS.ENCODE and RS.CHECK: not configured; empty; one byte too long with its padding; the longest
message accepted. -/
theorem witness_EncodeAnswersACodeword : State.reset.regs.cfgValid = false ∧ demo.regs.cfgValid = true ∧
    longest ≠ [] ∧ 65535 < longest.length + demo.regs.cfgK.toNat ∧ demo.Inv ∧
    demo.regs.accepts (List.replicate 65531 0x01#8) ∧
    [0x01#8].length = 256 * (0x00#8 : Byte).toNat + (0x01#8 : Byte).toNat ∧
    [0x01#8].length ≠ 256 * (0x00#8 : Byte).toNat + (0x02#8 : Byte).toNat ∧ [0x00#8].length < 2 :=
  ⟨rfl, rfl, longest_ne_nil, by rw [length_longest, show demo.regs.cfgK.toNat = 4 from rfl]; omega, demo_inv,
    demo_accepts _ (fun h => absurd (congrArg List.length h) (by rw [List.length_replicate]; decide))
      (by rw [List.length_replicate]),
    rfl, by decide, by decide⟩

theorem witness_CheckAnswersTheVerdict : demo.Inv ∧ demo.regs.accepts [0x01#8] ∧
    (pdivrem (demo.regs.message [0x01#8]) demo.regs.generator).map Prod.snd ≠ some [0x00#8] ∧
    (pdivrem (demo.regs.message [0x00#8]) demo.regs.generator).map Prod.snd = some [0x00#8] ∧
    State.reset.regs.cfgValid = false ∧ longest ≠ [] ∧ 65535 < longest.length + demo.regs.cfgK.toNat ∧
    [0x00#8].length < 2 :=
  ⟨demo_inv, demo_accepts _ (by decide) (by decide), by decide +kernel, by decide +kernel, rfl, longest_ne_nil,
    by rw [length_longest, show demo.regs.cfgK.toNat = 4 from rfl]; omega, by decide⟩

theorem witness_CheckMeansDivisibility :
    (demo.Inv ∧ demo.regs.accepts [0x01#8] ∧ demo.regs.cfgG ≠ 0x00#8) ∧
    (demoEqual.Inv ∧ demoEqual.regs.accepts [0x01#8] ∧ demoEqual.regs.cfgK = demoEqual.regs.cfgN) ∧
    (demoZero.Inv ∧ demoZero.regs.accepts [0x01#8] ∧ demoZero.regs.cfgG = 0x00#8 ∧
      demoZero.regs.degree ≤ demoZero.regs.cfgK.toNat) ∧
    demo.regs.accepts [0x00#8] ∧ ∀ c ∈ [0x00#8], c = 0x00#8 :=
  ⟨⟨demo_inv, demo_accepts _ (by decide) (by decide), by decide⟩, ⟨demoEqual_inv, ⟨rfl, by decide, by decide⟩, rfl⟩,
    ⟨demoZero_inv, ⟨rfl, by decide, by decide⟩, rfl, by decide⟩, demo_accepts _ (by decide) (by decide), by decide⟩

/-- The degree below k, and the degree above k with a message long enough. -/
theorem witness_CodewordKeepsTheMessage :
    (demo.Inv ∧ demo.regs.accepts [0x01#8] ∧ pnorm [0x01#8] ≠ [0x00#8] ∧ demo.regs.degree ≤ demo.regs.cfgK.toNat) ∧
    demoWide.Inv ∧ demoWide.regs.accepts [0x01#8, 0x02#8] ∧ pnorm [0x01#8, 0x02#8] ≠ [0x00#8] ∧
    demoWide.regs.cfgK.toNat < demoWide.regs.degree ∧
    demoWide.regs.degree < (pnorm [0x01#8, 0x02#8]).length + demoWide.regs.cfgK.toNat :=
  ⟨⟨demo_inv, demo_accepts _ (by decide) (by decide), by decide, by decide⟩, demoWide_inv,
    demoWide_accepts _ (by decide) (by decide), by decide, by decide, by decide⟩

theorem witness_CodewordLengthIsThePolynomialLength :
    (demoWide.Inv ∧ demoWide.regs.accepts [0x01#8] ∧
      (pnorm [0x01#8]).length + demoWide.regs.cfgK.toNat ≤ demoWide.regs.degree) ∧
    pnorm [0x00#8] = [0x00#8] ∧
    (demo.Inv ∧ demo.regs.accepts [0x01#8] ∧ demo.regs.accepts (zeros 2 ++ [0x01#8])) ∧ pnorm [0x01#8] ≠ [0x00#8] ∧
    demo.regs.degree < (pnorm [0x01#8]).length + demo.regs.cfgK.toNat :=
  ⟨⟨demoWide_inv, demoWide_accepts _ (by decide) (by decide), by decide⟩, by decide,
    ⟨demo_inv, demo_accepts _ (by decide) (by decide), demo_accepts _ (by decide) (by decide)⟩, by decide, by decide⟩

theorem witness_ShortMessagesEncodeToZero :
    (demoWide.Inv ∧ demoWide.regs.accepts [0x01#8] ∧
      (pnorm [0x01#8]).length + demoWide.regs.cfgK.toNat ≤ demoWide.regs.degree) ∧
    demo.Inv ∧ demo.regs.accepts [0x00#8, 0x00#8] ∧ ∀ c ∈ [0x00#8, 0x00#8], c = 0x00#8 :=
  ⟨⟨demoWide_inv, demoWide_accepts _ (by decide) (by decide), by decide⟩, demo_inv,
    demo_accepts _ (by decide) (by decide), by decide⟩

theorem demo_encodes : Encodes demo [0x01#8, 0x02#8, 0x03#8]
    [0x01#8, 0x02#8, 0x03#8, 0x00#8, 0xEF#8, 0x3C#8, 0x3A#8] := by
  have h : (pdivrem (demo.regs.message [0x01#8, 0x02#8, 0x03#8]) demo.regs.generator).map Prod.snd =
      some [0xEF#8, 0x3C#8, 0x3A#8] := by decide +kernel
  obtain ⟨q, r, hqr, he⟩ := withRemainder_eq [0x01#8, 0x02#8, 0x03#8] demo (fun M r => .sequence (psub M r)) demo_inv
    (demo_accepts _ (by decide) (by decide))
  rw [hqr, Option.map_some, Option.some.injEq] at h
  simp only at h
  rw [Encodes, exec, execRsEncode, he, h, show psub (demo.regs.message [0x01#8, 0x02#8, 0x03#8])
    [0xEF#8, 0x3C#8, 0x3A#8] = [0x01#8, 0x02#8, 0x03#8, 0x00#8, 0xEF#8, 0x3C#8, 0x3A#8] by decide +kernel]
  rfl

theorem witness_CheckAcceptsEveryCodeword : demo.Inv ∧ demo.regs.accepts [0x01#8, 0x02#8, 0x03#8] ∧
    Encodes demo [0x01#8, 0x02#8, 0x03#8] [0x01#8, 0x02#8, 0x03#8, 0x00#8, 0xEF#8, 0x3C#8, 0x3A#8] ∧
    [0x01#8, 0x02#8, 0x03#8, 0x00#8, 0xEF#8, 0x3C#8, 0x3A#8].length + demo.regs.cfgK.toNat ≤ 65535 :=
  ⟨demo_inv, demo_accepts _ (by decide) (by decide), demo_encodes, by decide⟩

theorem witness_CheckDetectsEverySingleByteChange : demo.Inv ∧ demo.regs.accepts [0x01#8, 0x02#8, 0x03#8] ∧
    Encodes demo [0x01#8, 0x02#8, 0x03#8] [0x01#8, 0x02#8, 0x03#8, 0x00#8, 0xEF#8, 0x3C#8, 0x3A#8] ∧
    [0x01#8, 0x02#8, 0x03#8, 0x00#8, 0xEF#8, 0x3C#8, 0x3A#8].length + demo.regs.cfgK.toNat ≤ 65535 ∧
    demo.regs.cfgG ≠ 0x00#8 ∧ 1 ≤ demo.regs.degree ∧
    6 < [0x01#8, 0x02#8, 0x03#8, 0x00#8, 0xEF#8, 0x3C#8, 0x3A#8].length ∧
    0x3B#8 ≠ [0x01#8, 0x02#8, 0x03#8, 0x00#8, 0xEF#8, 0x3C#8, 0x3A#8].getD 6 0x00#8 :=
  ⟨demo_inv, demo_accepts _ (by decide) (by decide), demo_encodes, by decide, by decide, by decide, by decide, by decide⟩

theorem witness_GenrdAnswersTheGenerator : State.reset.regs.cfgValid = false ∧ demoEqual.Inv ∧
    demoEqual.regs.cfgValid = true ∧ demoLargest.Inv ∧ demoLargest.regs.cfgValid = true ∧ [0x00#8].length + 1 ≠ 1 :=
  ⟨rfl, demoEqual_inv, rfl, demoLargest_inv, rfl, by decide⟩

theorem witness_StatAnswersTheRegisters : demo.regs.cfgValid = true ∧ State.reset.regs.cfgValid = false ∧
    [0x00#8].length + 1 ≠ 1 := by decide

theorem witness_StatusPriority : (∀ i, decode [0x31#8, 0x00#8, 0x03#8, 0x01#8] ≠ .ok i) ∧
    State.reset.regs.cfgValid = false ∧ demo.regs.cfgValid = true :=
  ⟨fun i h => by
    rw [show decode [0x31#8, 0x00#8, 0x03#8, 0x01#8] = .error .wrongLength from rfl] at h
    exact absurd h (by simp), rfl, rfl⟩

end Sys2Proof.Tests
end

section
/-! PROOFS. The registers along a run: right after reset they are as tabulated (10_state.md R24), every step keeps the
register invariant (R21), and so every state a run reaches has it. -/

namespace Sys2Proof.Machine

/-! ### One step keeps the register invariant -/

/-- A command leaves the registers alone or installs a configuration that passed the tests of R132. -/
theorem exec_keeps_inv {i : Instr} {s t : State} (hs : s.Inv) (h : exec i s = .next t) : t.Inv := by
  rcases exec_next h with ⟨r, rfl, -⟩ | ⟨n, k, g, -, hk, hkn, hn, rfl⟩
  · exact hs
  · exact Regs.install_inv _ hs n k g hk hkn hn

theorem step_keeps_inv {s t : State} (hs : s.Inv) (h : step s = .next t) : t.Inv := by
  rcases step_next h with ⟨-, rfl⟩ | ⟨f, rest, i, -, -, he⟩ | ⟨f, rest, e, -, -, rfl⟩ | ⟨rest, -, rfl⟩
  case inl => exact hs
  case inr.inl => exact exec_keeps_inv (s := s.withInputs rest) hs he
  case inr.inr.inl => exact hs
  case inr.inr.inr => exact Regs.reset_inv

/-! ### Runs -/

/-- A run of one more step is a step and then a run. -/
theorem run_succ {k : Nat} {s t : State} (h : Host.Core.run core (k + 1) s = .next t) :
    ∃ u, step s = .next u ∧ Host.Core.run core k u = .next t := by
  simp only [Host.Core.run] at h
  cases hu : core.step s with
  | next u => exact ⟨u, hu, by simpa only [hu] using h⟩
  | fault e => simp [hu] at h
  | refused e => simp [hu] at h

/-- What every step keeps, every run keeps. -/
theorem run_keeps {P : State → Prop} (hstep : ∀ s t, P s → step s = .next t → P t) {k : Nat} {s t : State}
    (hs : P s) (h : Host.Core.run core k s = .next t) : P t := by
  induction k generalizing s with
  | zero => exact Host.Outcome.next.inj h ▸ hs
  | succ k ih =>
    obtain ⟨u, hu, hrun⟩ := run_succ h
    exact ih (hstep s u hs hu) hrun

/-- Whatever the host does after reset, the registers meet R21 and R24. -/
theorem run_from_reset_inv {inputs : List HostInput} {k : Nat} {s : State}
    (h : Host.Core.run core k { State.reset with inputs := inputs } = .next s) : s.Inv :=
  have hs : State.Inv { State.reset with inputs := inputs } := Regs.reset_inv
  run_keeps (fun _ _ => step_keeps_inv) hs h

/-! ### The generator polynomial of a valid configuration -/

/-- The first byte of GEN[0 .. len] is GEN[0]. -/
theorem Memory.read_zero_of_readSeq_eq_cons {m : Memory} {len : Nat} {v : Byte} {vs : List Byte}
    (h : m.readSeq len = v :: vs) : m.read 0 = v := by
  cases len with
  | zero => simp [Memory.readSeq] at h
  | succ len =>
    rw [Memory.readSeq, List.range_succ_eq_map, List.map_cons] at h
    exact (List.cons.inj h).1

/-- The generator polynomial is monic (R21, R133). -/
theorem Regs.gen_read_zero (r : Regs) (h : r.Inv) (hv : r.cfgValid = true) : r.gen.read 0 = 0x01#8 := by
  obtain ⟨t, ht⟩ := genpoly_head r.cfgN.toNat r.cfgK.toNat r.cfgG (h.kLeN hv)
  exact Memory.read_zero_of_readSeq_eq_cons ((h.genEq hv).trans ht)

theorem Regs.generator_normalised (r : Regs) (h : r.Inv) (hv : r.cfgValid = true) : Normalised r.generator :=
  r.pnorm_generator h hv ▸ pnorm_normalised r.generator

/-! ### The table reads, in any state -/

theorem answers_tblLog (s : State) {a : Byte} (ha : a ≠ 0x00#8) : Answers s [0x10#8, a] [0x00#8, logAt a] :=
  answers_of_exec (decode_of_operands (o := .tblLog) rfl) (if_neg ha)

theorem answers_tblInv (s : State) {a : Byte} (ha : a ≠ 0x00#8) : Answers s [0x12#8, a] [0x00#8, invAt a] :=
  answers_of_exec (decode_of_operands (o := .tblInv) rfl) (if_neg ha)

theorem answers_tblAlog (s : State) {hi lo : Byte} (h : 256 * hi.toNat + lo.toNat < 510) :
    Answers s [0x11#8, hi, lo] [0x00#8, alogAt (256 * hi.toNat + lo.toNat)] := by
  rw [← toNat_be16] at h ⊢
  exact answers_of_exec (decode_of_operands (o := .tblAlog) rfl) (if_neg (Nat.not_le.mpr h))

/-! ### The obligations -/

/-- Settles O14: the step's four cases keep the invariant, RS.CONFIG by installing the generator polynomial of a
configuration that passed the tests of R132. -/
theorem stepKeepsTheRegisterInvariant : Obligations.StepKeepsTheRegisterInvariant := by
  unfold Obligations.StepKeepsTheRegisterInvariant
  exact fun _ _ => step_keeps_inv

/-- Settles O16, from the invariant of every state a run reaches. -/
theorem validConfigurationHasItsGenerator : Obligations.ValidConfigurationHasItsGenerator := by
  unfold Obligations.ValidConfigurationHasItsGenerator
  intro inputs k s hrun hv
  have hinv : s.regs.Inv := run_from_reset_inv hrun
  exact ⟨hinv.kPos hv, hinv.kLeN hv, hinv.nLe hv, hinv.genLenEq hv, s.regs.gen_read_zero hinv hv,
    s.regs.generator_eq hinv hv, s.regs.generator_normalised hinv hv⟩

/-- Settles O10: the registers by the definition of reset, the tables by what TBL.LOG, TBL.INV and TBL.ALOG answer in
every state. -/
theorem resetStateIsAsTabulated : Obligations.ResetStateIsAsTabulated := by
  unfold Obligations.ResetStateIsAsTabulated
  exact ⟨rfl, rfl, rfl, rfl, rfl, fun _ => rfl, fun _ ha => ⟨answers_tblLog _ ha, answers_tblInv _ ha⟩,
    fun _ _ h => answers_tblAlog _ h⟩

/-- Settles O15. -/
theorem resetMeetsTheRegisterInvariant : Obligations.ResetMeetsTheRegisterInvariant := by
  unfold Obligations.ResetMeetsTheRegisterInvariant
  exact Regs.reset_inv

end Sys2Proof.Machine
end

section
/-! PROOFS. The encoding (30_encoding.md): decoding and assembly are inverse to each other (R58, R60), the well-formed
frames are those of the required length (R49), each opcode spells its command (R50); and at the ports, every frame is
answered with exactly one response frame, which has one of the formats of R51 to R56. -/

namespace Sys2Proof

open Machine

/-! ### The operands of an instruction and their bytes -/

/-- What the length field announces is what the sequence has (R47). -/
theorem length_eq_be16_lengthField {s : List Byte} (h : fitsLength s = true) :
    s.length = (be16 (hi8 (lengthField s)) (lo8 (lengthField s))).toNat := by
  rw [be16_hi8_lo8, toNat_lengthField_of_fits s h]

/-- The operand bytes of a well-formed instruction are read back as that instruction. -/
theorem operandsOf_operandBytes {i : Instr} (h : i.wf = true) : operandsOf i.opcode i.operandBytes = some i := by
  cases i with
  | gfZero | gfOne | rsGenrd | rsStat => rfl
  | gfInv | gfNeg | gfFromb | tblLog | tblInv => rfl
  | gfAdd | gfSub | gfMul | gfDiv | gfEq => rfl
  | gfExp a power => exact (operandsAP_eq_some _ _ _).mpr ⟨a, _, _, rfl, by rw [be16_hi8_lo8]⟩
  | tblAlog idx => exact (operandsI_eq_some _ _ _).mpr ⟨_, _, rfl, by rw [be16_hi8_lo8]⟩
  | rsConfig n k g =>
    exact (operandsRC_eq_some _ _ _).mpr ⟨_, _, _, _, g, rfl, by rw [be16_hi8_lo8, be16_hi8_lo8]⟩
  | polyEval x c => exact (operandsPE_eq_some _ _ _).mpr ⟨x, _, _, c, rfl, length_eq_be16_lengthField h, rfl⟩
  | polyMul a b =>
    obtain ⟨ha, hb⟩ : fitsLength a = true ∧ fitsLength b = true := by simpa [Instr.wf] using h
    exact (operandsPM_eq_some _ _ _).mpr
      ⟨_, _, _, _, a, b, rfl, length_eq_be16_lengthField ha, length_eq_be16_lengthField hb, rfl⟩
  | rsEncode m | rsCheck m => exact (operandsRM_eq_some _ _ _).mpr ⟨_, _, m, rfl, length_eq_be16_lengthField h, rfl⟩

/-- Bytes read as the operands of an instruction are its operand bytes, and its sequences fit their length fields. -/
theorem spells_of_operandsOf {o : Opcode} {rest : Frame} {i : Instr} (h : operandsOf o rest = some i) :
    i.opcode = o ∧ i.operandBytes = rest ∧ i.wf = true := by
  cases o with
  | gfZero | gfOne | rsGenrd | rsStat =>
    obtain ⟨rfl, rfl⟩ := (operandsZ_eq_some _ _ _).mp h
    exact ⟨rfl, rfl, rfl⟩
  | gfInv | gfNeg | gfFromb | tblLog | tblInv =>
    obtain ⟨a, rfl, rfl⟩ := (operandsA_eq_some _ _ _).mp h
    exact ⟨rfl, rfl, rfl⟩
  | gfAdd | gfSub | gfMul | gfDiv | gfEq =>
    obtain ⟨a, b, rfl, rfl⟩ := (operandsAB_eq_some _ _ _).mp h
    exact ⟨rfl, rfl, rfl⟩
  | gfExp =>
    obtain ⟨a, ph, pl, rfl, rfl⟩ := (operandsAP_eq_some _ _ _).mp h
    exact ⟨rfl, by rw [Instr.operandBytes, be16Bytes_be16], rfl⟩
  | tblAlog =>
    obtain ⟨ih, il, rfl, rfl⟩ := (operandsI_eq_some _ _ _).mp h
    exact ⟨rfl, be16Bytes_be16 ih il, rfl⟩
  | rsConfig =>
    obtain ⟨nh, nl, kh, kl, g, rfl, rfl⟩ := (operandsRC_eq_some _ _ _).mp h
    exact ⟨rfl, by rw [Instr.operandBytes, be16Bytes_be16, be16Bytes_be16]; rfl, rfl⟩
  | polyEval =>
    obtain ⟨x, lh, ll, c, rfl, hc, rfl⟩ := (operandsPE_eq_some _ _ _).mp h
    refine ⟨rfl, ?_, fitsLength_of_be16 c lh ll hc⟩
    rw [Instr.operandBytes, lengthField_eq_be16 c lh ll hc, be16Bytes_be16]
    rfl
  | polyMul =>
    obtain ⟨ah, al, bh, bl, a, b, rfl, ha, hb, rfl⟩ := (operandsPM_eq_some _ _ _).mp h
    refine ⟨rfl, ?_, by rw [Instr.wf, fitsLength_of_be16 a ah al ha, fitsLength_of_be16 b bh bl hb]; rfl⟩
    rw [Instr.operandBytes, lengthField_eq_be16 a ah al ha, lengthField_eq_be16 b bh bl hb, be16Bytes_be16,
      be16Bytes_be16]
    rfl
  | rsEncode | rsCheck =>
    obtain ⟨lh, ll, m, rfl, hm, rfl⟩ := (operandsRM_eq_some _ _ _).mp h
    refine ⟨rfl, ?_, fitsLength_of_be16 m lh ll hm⟩
    rw [Instr.operandBytes, lengthField_eq_be16 m lh ll hm, be16Bytes_be16]
    rfl

/-! ### Which frames are well-formed -/

/-- Which operand bytes a format takes (R47): a fixed number, or as many as the length fields among them announce. -/
def Format.Takes : Format → Frame → Prop
  | .z, f => f = []
  | .a, f => ∃ a, f = [a]
  | .ab, f => ∃ a b, f = [a, b]
  | .ap, f => ∃ a ph pl, f = [a, ph, pl]
  | .i, f => ∃ ih il, f = [ih, il]
  | .pe, f => ∃ x lh ll c, f = x :: lh :: ll :: c ∧ c.length = 256 * lh.toNat + ll.toNat
  | .pm, f => ∃ ah al bh bl ab, f = ah :: al :: bh :: bl :: ab ∧
    ab.length = 256 * ah.toNat + al.toNat + (256 * bh.toNat + bl.toNat)
  | .rc, f => ∃ nh nl kh kl g, f = [nh, nl, kh, kl, g]
  | .rm, f => ∃ lh ll m, f = lh :: ll :: m ∧ m.length = 256 * lh.toNat + ll.toNat

/-- A command's operands are read from exactly the bytes its format takes (R58). -/
theorem exists_operandsOf_iff (o : Opcode) (f : Frame) : (∃ i, operandsOf o f = some i) ↔ o.format.Takes f := by
  cases o with
  | gfZero | gfOne | rsGenrd | rsStat => simp [operandsOf, Opcode.format, Format.Takes, operandsZ_eq_some]
  | gfInv | gfNeg | gfFromb | tblLog | tblInv => simp [operandsOf, Opcode.format, Format.Takes, operandsA_eq_some]
  | gfAdd | gfSub | gfMul | gfDiv | gfEq => simp [operandsOf, Opcode.format, Format.Takes, operandsAB_eq_some]
  | gfExp => simp [operandsOf, Opcode.format, Format.Takes, operandsAP_eq_some]
  | tblAlog => simp [operandsOf, Opcode.format, Format.Takes, operandsI_eq_some]
  | rsConfig => simp [operandsOf, Opcode.format, Format.Takes, operandsRC_eq_some]
  | polyEval => simp [operandsOf, Opcode.format, Format.Takes, operandsPE_eq_some, toNat_be16]
  | polyMul =>
    simp only [operandsOf, Opcode.format, Format.Takes, ← toNat_be16]
    constructor
    · rintro ⟨i, hi⟩
      obtain ⟨ah, al, bh, bl, a, b, hf, ha, hb, -⟩ := (operandsPM_eq_some _ _ _).mp hi
      exact ⟨ah, al, bh, bl, a ++ b, hf, by rw [List.length_append, ha, hb]⟩
    · rintro ⟨ah, al, bh, bl, ab, rfl, hl⟩
      exact ⟨_, if_pos hl⟩
  | rsEncode | rsCheck => simp [operandsOf, Opcode.format, Format.Takes, operandsRM_eq_some, toNat_be16]

/-- The required length of a format is the length of what it takes, the opcode counted (R49). -/
theorem formatLength_eq_iff (fm : Format) (f : Frame) :
    formatLength fm f = some (f.length + 1) ↔ fm.Takes f := by
  cases fm with
  | z => simp [formatLength, Format.Takes]
  | a => rcases f with _ | ⟨a, _ | ⟨b, f⟩⟩ <;> simp [formatLength, Format.Takes]
  | ab => rcases f with _ | ⟨a, _ | ⟨b, _ | ⟨c, f⟩⟩⟩ <;> simp [formatLength, Format.Takes]
  | ap => rcases f with _ | ⟨a, _ | ⟨b, _ | ⟨c, _ | ⟨d, f⟩⟩⟩⟩ <;> simp [formatLength, Format.Takes]
  | i => rcases f with _ | ⟨a, _ | ⟨b, _ | ⟨c, f⟩⟩⟩ <;> simp [formatLength, Format.Takes]
  | rc =>
    rcases f with _ | ⟨a, _ | ⟨b, _ | ⟨c, _ | ⟨d, _ | ⟨e, _ | ⟨x, f⟩⟩⟩⟩⟩⟩ <;> simp [formatLength, Format.Takes]
  | pe =>
    rcases f with _ | ⟨a, _ | ⟨b, _ | ⟨c, f⟩⟩⟩ <;> simp [formatLength, Format.Takes, toNat_be16]
    omega
  | pm =>
    rcases f with _ | ⟨a, _ | ⟨b, _ | ⟨c, _ | ⟨d, f⟩⟩⟩⟩ <;> simp [formatLength, Format.Takes, toNat_be16]
    omega
  | rm =>
    rcases f with _ | ⟨a, _ | ⟨b, f⟩⟩ <;> simp [formatLength, Format.Takes, toNat_be16]
    omega

/-- The decoder accepts an assigned opcode followed by what its format takes. -/
theorem exists_decode_iff (f : Frame) :
    (∃ i, decode f = .ok i) ↔ ∃ (o : Opcode) (rest : Frame), f = o.byte :: rest ∧ o.format.Takes rest := by
  constructor
  · rintro ⟨i, hi⟩
    obtain ⟨o, rest, hf, ho⟩ := (decode_eq_ok f i).mp hi
    exact ⟨o, rest, hf, (exists_operandsOf_iff o rest).mp ⟨i, ho⟩⟩
  · rintro ⟨o, rest, rfl, ht⟩
    obtain ⟨i, hi⟩ := (exists_operandsOf_iff o rest).mpr ht
    exact ⟨i, decode_of_operands hi⟩

/-- A frame that is accepted has its required length (R49). -/
theorem requiredLength_of_decode {f : Frame} {i : Instr} (h : decode f = .ok i) :
    requiredLength f = some f.length := by
  obtain ⟨o, rest, rfl, ht⟩ := (exists_decode_iff f).mp ⟨i, h⟩
  rw [requiredLength_byte_cons]
  exact (formatLength_eq_iff o.format rest).mpr ht

/-- The opcode bytes of a format (R50). -/
def Format.opcodeBytes (fm : Format) : List Byte := (Opcode.all.filter (fun o => o.format = fm)).map Opcode.byte

theorem Opcode.mem_all (o : Opcode) : o ∈ Opcode.all := by cases o <;> decide

theorem Format.mem_opcodeBytes (fm : Format) (b : Byte) :
    b ∈ fm.opcodeBytes ↔ ∃ o : Opcode, o.format = fm ∧ o.byte = b := by
  simp [Format.opcodeBytes, Opcode.mem_all]

/-- The accepted frames, format by format. -/
theorem exists_decode_iff_format (f : Frame) :
    (∃ i, decode f = .ok i) ↔
      ∃ (fm : Format) (op : Byte) (rest : Frame), f = op :: rest ∧ op ∈ fm.opcodeBytes ∧ fm.Takes rest := by
  rw [exists_decode_iff]
  constructor
  · rintro ⟨o, rest, hf, ht⟩
    exact ⟨o.format, o.byte, rest, hf, (Format.mem_opcodeBytes _ _).mpr ⟨o, rfl, rfl⟩, ht⟩
  · rintro ⟨fm, op, rest, hf, hop, ht⟩
    obtain ⟨o, rfl, rfl⟩ := (Format.mem_opcodeBytes _ _).mp hop
    exact ⟨o, rest, hf, ht⟩

/-- The assigned opcodes lie in four ranges (R50). -/
theorem Opcode.byte_ranges (o : Opcode) :
    o.byte.toNat ≤ 0x0A ∨ (0x10 ≤ o.byte.toNat ∧ o.byte.toNat ≤ 0x12) ∨
    (0x20 ≤ o.byte.toNat ∧ o.byte.toNat ≤ 0x21) ∨ (0x30 ≤ o.byte.toNat ∧ o.byte.toNat ≤ 0x34) := by
  cases o <;> decide

/-- A 16-bit field is fixed by its two bytes (R48). -/
theorem be16_eq_of_toNat {v : Half} {hi lo : Byte} (h : v.toNat = 256 * hi.toNat + lo.toNat) : be16 hi lo = v :=
  BitVec.eq_of_toNat_eq (by rw [toNat_be16, h])

/-! ### The obligations on the encoding -/

/-- Settles O1: the opcode of an instruction selects the operand reader that reads its operand bytes back. -/
theorem decodeInvertsEncode : Obligations.DecodeInvertsEncode := by
  unfold Obligations.DecodeInvertsEncode
  exact fun _ h => decode_of_operands (operandsOf_operandBytes h)

/-- Settles O2: what an operand reader accepts are the operand bytes of the instruction it answers. -/
theorem encodeInvertsDecode : Obligations.EncodeInvertsDecode := by
  unfold Obligations.EncodeInvertsDecode
  intro f i h
  obtain ⟨o, rest, rfl, ho⟩ := (decode_eq_ok f i).mp h
  obtain ⟨hop, hbytes, hwf⟩ := spells_of_operandsOf ho
  exact ⟨hwf, by rw [encode, hop, hbytes]⟩

/-- Settles O3: each frame is an opcode byte and what its operand reader reads. -/
theorem opcodeMapSpellsTheCommands : Obligations.OpcodeMapSpellsTheCommands := by
  unfold Obligations.OpcodeMapSpellsTheCommands
  refine ⟨rfl, rfl, fun a b => ⟨rfl, rfl, rfl, rfl, rfl⟩, fun a => ⟨rfl, rfl, rfl, rfl, rfl⟩, ?_, ?_, ?_, ?_, ?_, ?_,
    rfl, rfl⟩
  · intro a hi lo power h
    rw [← be16_eq_of_toNat h]
    rfl
  · intro hi lo idx h
    rw [← be16_eq_of_toNat h]
    rfl
  · intro x hi lo c h
    exact decode_of_operands (o := .polyEval) (if_pos (h.trans (toNat_be16 hi lo).symm))
  · intro ah al bh bl a b ha hb
    refine decode_of_operands (o := .polyMul) ((operandsPM_eq_some _ _ _).mpr ⟨ah, al, bh, bl, a, b, rfl, ?_, ?_, rfl⟩)
    · rw [toNat_be16, ha]
    · rw [toNat_be16, hb]
  · intro nh nl kh kl g n k hn hk
    rw [← be16_eq_of_toNat hn, ← be16_eq_of_toNat hk]
    rfl
  · intro hi lo m h
    have hm : m.length = (be16 hi lo).toNat := h.trans (toNat_be16 hi lo).symm
    exact ⟨decode_of_operands (o := .rsEncode) (if_pos hm), decode_of_operands (o := .rsCheck) (if_pos hm)⟩

/-- Settles O4: an accepted frame is an opcode byte of some format and what that format takes; the nine clauses are the
nine formats. -/
theorem wellFormedFramesAreThoseOfRequiredLength : Obligations.WellFormedFramesAreThoseOfRequiredLength := by
  unfold Obligations.WellFormedFramesAreThoseOfRequiredLength
  intro f
  rw [exists_decode_iff_format]
  constructor
  · rintro ⟨fm, op, rest, rfl, hop, ht⟩
    cases fm with
    | z =>
      obtain rfl := ht
      exact .inl ⟨op, rfl, hop⟩
    | a =>
      obtain ⟨a, rfl⟩ := ht
      exact .inr (.inl ⟨op, a, rfl, hop⟩)
    | ab =>
      obtain ⟨a, b, rfl⟩ := ht
      exact .inr (.inr (.inl ⟨op, a, b, rfl, hop⟩))
    | ap =>
      obtain ⟨a, ph, pl, rfl⟩ := ht
      obtain rfl := List.mem_singleton.mp hop
      exact .inr (.inr (.inr (.inl ⟨a, ph, pl, rfl⟩)))
    | i =>
      obtain ⟨ih, il, rfl⟩ := ht
      obtain rfl := List.mem_singleton.mp hop
      exact .inr (.inr (.inr (.inr (.inl ⟨ih, il, rfl⟩))))
    | rc =>
      obtain ⟨nh, nl, kh, kl, g, rfl⟩ := ht
      obtain rfl := List.mem_singleton.mp hop
      exact .inr (.inr (.inr (.inr (.inr (.inl ⟨nh, nl, kh, kl, g, rfl⟩)))))
    | pe =>
      obtain ⟨x, lh, ll, c, rfl, hc⟩ := ht
      obtain rfl := List.mem_singleton.mp hop
      refine .inr (.inr (.inr (.inr (.inr (.inr (.inl ⟨x, lh, ll, c, rfl, ?_⟩))))))
      simp only [List.length_cons, hc]
      omega
    | pm =>
      obtain ⟨ah, al, bh, bl, ab, rfl, hab⟩ := ht
      obtain rfl := List.mem_singleton.mp hop
      refine .inr (.inr (.inr (.inr (.inr (.inr (.inr (.inl ⟨ah, al, bh, bl, ab, rfl, ?_⟩)))))))
      simp only [List.length_cons, hab]
      omega
    | rm =>
      obtain ⟨lh, ll, m, rfl, hm⟩ := ht
      refine .inr (.inr (.inr (.inr (.inr (.inr (.inr (.inr ⟨op, lh, ll, m, rfl, hop, ?_⟩)))))))
      simp only [List.length_cons, hm]
      omega
  · rintro (⟨op, rfl, hop⟩ | ⟨op, a, rfl, hop⟩ | ⟨op, a, b, rfl, hop⟩ | ⟨a, ph, pl, rfl⟩ | ⟨ih, il, rfl⟩ |
      ⟨nh, nl, kh, kl, g, rfl⟩ | ⟨x, lh, ll, c, rfl, hl⟩ | ⟨ah, al, bh, bl, ab, rfl, hl⟩ | ⟨op, lh, ll, m, rfl, hop, hl⟩)
    · exact ⟨.z, op, _, rfl, hop, rfl⟩
    · exact ⟨.a, op, _, rfl, hop, a, rfl⟩
    · exact ⟨.ab, op, _, rfl, hop, a, b, rfl⟩
    · exact ⟨.ap, _, _, rfl, by decide, a, ph, pl, rfl⟩
    · exact ⟨.i, _, _, rfl, by decide, ih, il, rfl⟩
    · exact ⟨.rc, _, _, rfl, by decide, nh, nl, kh, kl, g, rfl⟩
    · refine ⟨.pe, _, _, rfl, by decide, x, lh, ll, c, rfl, ?_⟩
      simp only [List.length_cons] at hl
      omega
    · refine ⟨.pm, _, _, rfl, by decide, ah, al, bh, bl, ab, rfl, ?_⟩
      simp only [List.length_cons] at hl
      omega
    · refine ⟨.rm, op, _, rfl, hop, lh, ll, m, rfl, ?_⟩
      simp only [List.length_cons] at hl
      omega

/-- Settles O5: each frame is read byte for byte. -/
theorem sampleFramesDecode : Obligations.SampleFramesDecode := by
  unfold Obligations.SampleFramesDecode
  exact ⟨rfl, rfl, rfl, rfl, rfl, rfl, rfl, rfl, rfl⟩

end Sys2Proof

namespace Sys2Proof.Machine

/-! ### Malformed frames -/

/-- A frame the decoder does not accept is answered ILLEGAL_COMMAND (R57). -/
theorem answers_of_not_decoded {f : Frame} (h : ∀ i, decode f ≠ .ok i) (s : State) : Answers s f [0x07#8] := by
  cases hd : decode f with
  | ok i => exact absurd hd (h i)
  | error e => exact runFrame_of_error hd s

theorem answers_of_requiredLength_ne {f : Frame} (h : requiredLength f ≠ some f.length) (s : State) :
    Answers s f [0x07#8] :=
  answers_of_not_decoded (fun _ hi => h (requiredLength_of_decode hi)) s

/-- Outside the ranges of R50 no opcode is assigned. -/
theorem opcodeOf_of_unassigned {op : Byte}
    (h : (0x0B ≤ op.toNat ∧ op.toNat ≤ 0x0F) ∨ (0x13 ≤ op.toNat ∧ op.toNat ≤ 0x1F) ∨
      (0x22 ≤ op.toNat ∧ op.toNat ≤ 0x2F) ∨ 0x35 ≤ op.toNat) : opcodeOf op = none := by
  cases ho : opcodeOf op with
  | none => rfl
  | some o =>
    have := o.byte_ranges
    rw [byte_of_opcodeOf ho] at this
    omega

/-! ### Response frames -/

theorem legalResponse_status (st : Status) : LegalResponse (Response.status st).bytes :=
  .inl ⟨st.code, rfl, by cases st <;> decide⟩

theorem legalResponse_value (v : Byte) : LegalResponse (Response.value v).bytes := .inr (.inl ⟨v, rfl⟩)

theorem legalResponse_sequence {q : List Byte} (h1 : 1 ≤ q.length) (h : q.length ≤ Config.maxLen) :
    LegalResponse (Response.sequence q).bytes :=
  .inr (.inr (.inl ⟨_, _, q, rfl, by rw [be16_hi8_lo8, toNat_lengthField q h], h1⟩))

theorem legalResponse_config (valid : Bool) (n k : Half) (g : Byte) :
    LegalResponse (Response.config valid n k g).bytes :=
  .inr (.inr (.inr ⟨_, _, _, _, g, boolByte valid, rfl, by cases valid <;> decide⟩))

theorem LegalResponse.ne_nil {r : Frame} (h : LegalResponse r) : r ≠ [] := by
  rintro rfl
  simp [LegalResponse] at h

/-! ### Lengths of the sequences sent -/

/-- A difference is no longer than its longer operand, or one element (R113, R114). -/
theorem length_psub_le {a b : List Byte} {len : Nat} (ha : a.length ≤ len) (hb : b.length ≤ len) (hl : 1 ≤ len) :
    (psub a b).length ≤ len := by
  have h : (addSeq (padTo len a) (padTo len b)).length = len := by
    rw [length_addSeq, length_padTo _ _ ha, length_padTo _ _ hb, min_self]
  rw [psub, padd_eq a b len ha hb hl]
  exact (length_pnorm_le _ (by omega)).trans h.le

theorem length_psub_pos (a b : List Byte) : 1 ≤ (psub a b).length := (padd_normalised a b).length_pos

/-- A sequence that does not denote zero is not empty. -/
theorem length_pos_of_pnorm_ne_zeroPoly {a : List Byte} (h : pnorm a ≠ zeroPoly) : 1 ≤ a.length :=
  List.length_pos_iff.mpr fun ha => h (by rw [ha, pnorm_nil])

/-- The bound that POLY.MUL tests before it multiplies (R119). -/
theorem length_pmul_le {a b : List Byte} {n : Nat} (h : a.length + b.length ≤ n + 1) (hn : 1 ≤ n) :
    (pmul a b).length ≤ n := by
  by_cases ha : pnorm a = zeroPoly
  · rw [← pmul_pnorm_left, ha, zeroPoly_pmul]
    exact hn
  by_cases hb : pnorm b = zeroPoly
  · rw [← pmul_pnorm_right, hb, pmul_zeroPoly]
    exact hn
  have hla := length_pnorm_le a (length_pos_of_pnorm_ne_zeroPoly ha)
  have hlb := length_pnorm_le b (length_pos_of_pnorm_ne_zeroPoly hb)
  rw [length_pmul ha hb]
  omega

/-- A remainder is zero or shorter than the divisor (R117). -/
theorem length_remainder_le {a d q r : List Byte} (hd : pnorm d ≠ zeroPoly) (h : pdivrem a d = some (q, r)) :
    r.length ≤ (pnorm d).length := by
  obtain ⟨q', r', hqr, -, -, -, hlt⟩ := pdivrem_spec a d hd
  obtain ⟨rfl, rfl⟩ : q = q' ∧ r = r' := by simpa [h] using hqr
  rcases hlt with rfl | hlt
  · exact length_pnorm_pos d
  · exact hlt.le

/-- The generator polynomial of a valid configuration has at most 256 coefficients (R21). -/
theorem Regs.length_generator_le (r : Regs) (h : r.Inv) (hv : r.cfgValid = true) : r.generator.length ≤ 256 := by
  have hk := h.kPos hv
  have hn := h.nLe hv
  simp only [Config.nMax] at hn
  rw [r.length_generator h hv, Regs.degree]
  omega

/-- The message polynomial of an accepted message can be sent (R136). -/
theorem Regs.length_message_le {r : Regs} {m : List Byte} (hm : r.accepts m) :
    (r.message m).length ≤ Config.maxLen := by
  obtain ⟨-, hne, hl⟩ := hm
  have hpos := List.length_pos_iff.mpr hne
  have hlen : (m ++ zeros r.cfgK.toNat).length = m.length + r.cfgK.toNat := by simp
  exact (length_pnorm_le _ (by omega)).trans (hlen ▸ hl)

/-! ### Every command answers with a response frame -/

/-- The command ends in a next state, in which one response frame has been sent after those sent before, and the host's
next inputs are as they were (R45). -/
def AnswersLegally (s : State) (o : Host.Outcome State Fault Refusal) : Prop :=
  ∃ (t : State) (r : Frame),
    o = .next t ∧ t.responses = s.responses ++ [r] ∧ t.inputs = s.inputs ∧ LegalResponse r

theorem respond_answersLegally {r : Response} (h : LegalResponse r.bytes) (s : State) :
    AnswersLegally s (respond r s) := ⟨_, r.bytes, rfl, rfl, rfl, h⟩

theorem raise_answersLegally (st : Status) (s : State) : AnswersLegally s (raise st s) :=
  respond_answersLegally (legalResponse_status st) s

theorem value_answersLegally (v : Byte) (s : State) : AnswersLegally s (respond (.value v) s) :=
  respond_answersLegally (legalResponse_value v) s

theorem value_unless_answersLegally (c : Prop) [Decidable c] (st : Status) (v : Byte) (s : State) :
    AnswersLegally s (if c then raise st s else respond (.value v) s) := by
  split
  · exact raise_answersLegally st s
  · exact value_answersLegally v s

theorem execRsConfig_answersLegally (n k : Half) (g : Byte) (s : State) :
    AnswersLegally s (execRsConfig n k g s) := by
  rw [execRsConfig]
  split_ifs
  case neg => exact ⟨_, _, rfl, rfl, rfl, legalResponse_status .ok⟩
  all_goals exact raise_answersLegally _ s

/-- RS.ENCODE and RS.CHECK answer legally if the response made from the message polynomial and a remainder no longer
than the generator polynomial is legal. -/
theorem withRemainder_answersLegally {m : List Byte} {s : State} {answer : List Byte → List Byte → Response}
    (hs : s.Inv) (hr : ∀ r : List Byte, s.regs.accepts m → r.length ≤ s.regs.generator.length →
      LegalResponse (answer (s.regs.message m) r).bytes) :
    AnswersLegally s (withRemainder m s answer) := by
  cases hv : s.regs.cfgValid with
  | false =>
    rw [withRemainder_not_configured m s answer hv]
    exact raise_answersLegally _ s
  | true =>
    by_cases hne : m = []
    · rw [hne, withRemainder_empty s answer hv]
      exact raise_answersLegally _ s
    by_cases hl : m.length + s.regs.cfgK.toNat ≤ 65535
    · have hm : s.regs.accepts m := ⟨hv, hne, hl⟩
      obtain ⟨q, r, hqr, he⟩ := withRemainder_eq m s answer hs hm
      have hrl := length_remainder_le (s.regs.generator_ne_zeroPoly hs hv) hqr
      rw [s.regs.pnorm_generator hs hv] at hrl
      rw [he]
      exact respond_answersLegally (hr r hm hrl) s
    · rw [withRemainder_too_long m s answer hv hne (Nat.not_le.mp hl)]
      exact raise_answersLegally _ s

theorem execRsEncode_answersLegally (m : List Byte) {s : State} (hs : s.Inv) :
    AnswersLegally s (execRsEncode m s) := by
  refine withRemainder_answersLegally hs fun r hm hr => legalResponse_sequence (length_psub_pos _ _) ?_
  have hg := s.regs.length_generator_le hs hm.1
  exact length_psub_le (Regs.length_message_le hm) (by simp only [Config.maxLen]; omega) (by decide)

theorem execRsCheck_answersLegally (m : List Byte) {s : State} (hs : s.Inv) :
    AnswersLegally s (execRsCheck m s) :=
  withRemainder_answersLegally (answer := fun _ r => .value (boolByte (r == zeroPoly))) hs
    fun _ _ _ => legalResponse_value _

theorem execRsGenrd_answersLegally {s : State} (hs : s.Inv) : AnswersLegally s (execRsGenrd s) := by
  cases hv : s.regs.cfgValid with
  | false =>
    rw [execRsGenrd, if_pos hv]
    exact raise_answersLegally _ s
  | true =>
    have hgen := s.regs.generator_eq hs hv
    have hl := s.regs.length_generator_le hs hv
    have hpos := s.regs.length_generator hs hv
    rw [execRsGenrd, if_neg (by simp [hv]), s.regs.genSeq_eq hs hv, ← hgen]
    exact respond_answersLegally (legalResponse_sequence (by omega) (by simp only [Config.maxLen]; omega)) s

/-- In a state that meets the register invariant every command answers with a response frame (R45, R157). -/
theorem exec_answersLegally (i : Instr) {s : State} (hs : s.Inv) : AnswersLegally s (exec i s) := by
  cases i with
  | gfZero | gfOne | gfAdd | gfSub | gfMul | gfExp | gfNeg | gfEq | gfFromb | polyEval => exact value_answersLegally _ s
  | gfDiv a b =>
    rw [exec, execGfDiv]
    split
    · exact raise_answersLegally _ s
    · exact value_answersLegally _ s
  | gfInv a =>
    rw [exec, execGfInv]
    split
    · exact raise_answersLegally _ s
    · exact value_answersLegally _ s
  | tblLog | tblAlog | tblInv => exact value_unless_answersLegally _ _ _ s
  | polyMul a b =>
    rw [exec, execPolyMul]
    split
    · exact raise_answersLegally _ s
    · next h =>
      exact respond_answersLegally (legalResponse_sequence (pmul_normalised a b).length_pos
        (length_pmul_le (Nat.not_lt.mp h) (by decide))) s
  | rsConfig n k g => exact execRsConfig_answersLegally n k g s
  | rsEncode m => exact execRsEncode_answersLegally m hs
  | rsCheck m => exact execRsCheck_answersLegally m hs
  | rsGenrd => exact execRsGenrd_answersLegally hs
  | rsStat => exact respond_answersLegally (legalResponse_config _ _ _ _) s

/-- Every command frame, well-formed or not, is answered with a response frame (R45, R57). -/
theorem runFrame_answersLegally (f : Frame) {s : State} (hs : s.Inv) : AnswersLegally s (runFrame f s) := by
  cases hd : decode f with
  | ok i =>
    rw [runFrame_of_decode hd]
    exact exec_answersLegally i hs
  | error e =>
    rw [runFrame_of_error hd]
    exact raise_answersLegally .illegalCommand s

/-- What a command that answers legally has sent is legal if what was sent before is. -/
theorem AnswersLegally.responses_legal {s t : State} {o : Host.Outcome State Fault Refusal} (h : AnswersLegally s o)
    (ht : o = .next t) (hl : ∀ r ∈ s.responses, LegalResponse r) : ∀ r ∈ t.responses, LegalResponse r := by
  obtain ⟨t', r', ho, hresp, -, hr'⟩ := h
  obtain rfl : t' = t := Host.Outcome.next.inj (ho.symm.trans ht)
  intro r hr
  rw [hresp, List.mem_append, List.mem_singleton] at hr
  rcases hr with hr | rfl
  · exact hl r hr
  · exact hr'

/-! ### The step at the command port -/

theorem step_of_idle {s : State} (h : s.inputs = []) : step s = .next s := by rw [step, takeNext, h]

theorem step_of_command {s : State} {f : Frame} {rest : List HostInput} (h : s.inputs = .command f :: rest) :
    step s = runFrame f (s.withInputs rest) := by
  rw [step, takeNext, h]
  rfl

/-! ### The obligations at the ports -/

/-- Settles O6: the decoder answers each of these frames with an error; for the last kind because an accepted frame has
its required length. -/
theorem malformedFramesAnswerIllegalCommand : Obligations.MalformedFramesAnswerIllegalCommand := by
  unfold Obligations.MalformedFramesAnswerIllegalCommand
  refine ⟨fun s => runFrame_of_error decode_nil s, fun s op rest h => ?_,
    fun s f h => answers_of_requiredLength_ne h s⟩
  exact runFrame_of_error (decode_cons_of_unknown (opcodeOf_of_unassigned h) rest) s

/-- Settles O7: the two bytes are those of the length field. -/
theorem sequenceResponseCarriesItsLength : Obligations.SequenceResponseCarriesItsLength := by
  unfold Obligations.SequenceResponseCarriesItsLength
  intro q hq
  refine ⟨hi8 (lengthField q), lo8 (lengthField q), rfl, ?_⟩
  rw [← toNat_be16, be16_hi8_lo8, toNat_lengthField q hq]

/-- Settles O12: the step runs the frame, and every frame is answered with a response frame, which is not empty. -/
theorem everyFrameGetsExactlyOneResponse : Obligations.EveryFrameGetsExactlyOneResponse := by
  unfold Obligations.EveryFrameGetsExactlyOneResponse
  intro s f rest hs hin
  obtain ⟨t, r, ht, hresp, hinputs, hr⟩ := runFrame_answersLegally f (s := s.withInputs rest) hs
  exact ⟨t, r, (step_of_command hin).trans ht, hresp, hinputs, hr.ne_nil⟩

/-- Settles O20: a step that takes a command frame adds one legal response, and no other step adds one. -/
theorem responsesStayLegal : Obligations.ResponsesStayLegal := by
  unfold Obligations.ResponsesStayLegal
  intro s t hs hl h
  rcases step_next h with ⟨-, rfl⟩ | ⟨f, rest, i, -, -, he⟩ | ⟨f, rest, e, -, -, rfl⟩ | ⟨rest, -, rfl⟩
  case inl => exact hl
  case inr.inl => exact (exec_answersLegally i (s := s.withInputs rest) hs).responses_legal he hl
  case inr.inr.inl => exact (raise_answersLegally .illegalCommand (s.withInputs rest)).responses_legal rfl hl
  case inr.inr.inr => exact hl

/-- Settles O8: the step runs the frame it takes, and the frame decodes to the command. -/
theorem stepRunsDecodedInstruction : Obligations.StepRunsDecodedInstruction := by
  unfold Obligations.StepRunsDecodedInstruction
  intro s f rest i hin hd
  exact (step_of_command hin).trans (runFrame_of_decode hd _)

/-- Settles O9. -/
theorem idleCoreChangesNothing : Obligations.IdleCoreChangesNothing := by
  unfold Obligations.IdleCoreChangesNothing
  exact fun _ h => step_of_idle h

end Sys2Proof.Machine
end

section
/-! PROOFS. The field and its tables (40_field_tables.md): the tables hold the powers of TABLE_GEN (R71 to R74), no
result depends on which element of order 255 generates them (R75), and TBL.LOG and TBL.ALOG answer their entries (R76,
R77). -/

namespace Sys2Proof.Machine

/-! ### Powers of a nonzero element -/

theorem clmulPow_ne_zero {a : Byte} (ha : a ≠ 0x00#8) (p : Nat) : clmulPow a p ≠ 0x00#8 :=
  gfExp_eq_clmulPow a p ▸ gfExp_ne_zero ha p

theorem clmulPow_add (a : Byte) (p q : Nat) : clmulPow a (p + q) = gfMul (clmulPow a p) (clmulPow a q) := by
  simp only [← gfExp_eq_clmulPow, gfExp_add]

theorem clmulPow_mul (a : Byte) (p q : Nat) : clmulPow a (p * q) = gfExp (clmulPow a p) q := by
  induction q with
  | zero => rfl
  | succ q ih => rw [Nat.mul_succ, clmulPow_add, ih, gfExp_succ]

/-- The order of a nonzero element divides 255. -/
theorem clmulPow_cycleLen {a : Byte} (ha : a ≠ 0x00#8) : clmulPow a 255 = 0x01#8 := by
  rw [← gfExp_eq_clmulPow, gfExp_of_ne_zero ha, ← iterate_mod, Nat.mul_mod_left]
  rfl

/-- So exponents count modulo 255. -/
theorem clmulPow_mod {a : Byte} (ha : a ≠ 0x00#8) (p : Nat) : clmulPow a (p % 255) = clmulPow a p := by
  rw [← gfExp_eq_clmulPow, ← gfExp_eq_clmulPow, gfExp_of_ne_zero ha, gfExp_of_ne_zero ha, ← iterate_mod,
    Nat.mul_mod_mod, iterate_mod]

/-- No power of 0x00 is 0x02, so an element whose powers give every nonzero element is not 0x00. -/
theorem ne_zero_of_generates {T : Byte} (h : ∀ a : Byte, a ≠ 0x00#8 → ∃ e, e ≤ 254 ∧ clmulPow T e = a) :
    T ≠ 0x00#8 := by
  rintro rfl
  obtain ⟨e, -, he⟩ := h 0x02#8 (by decide)
  cases e with
  | zero => exact absurd he (by decide)
  | succ e =>
    rw [← gfExp_eq_clmulPow, gfExp_succ, gfMul_zero] at he
    exact absurd he (by decide)

/-! ### The inverse -/

/-- The inverse of a nonzero element is unique. -/
theorem invAt_eq_of_gfMul_eq_one {a v : Byte} (h : gfMul a v = 0x01#8) : invAt a = v := by
  have ha : a ≠ 0x00#8 := by
    rintro rfl
    exact absurd (h.symm.trans (zero_gfMul v)) (by decide)
  calc invAt a = gfMul (invAt a) (gfMul a v) := by rw [h, gfMul_one]
    _ = v := by rw [← gfMul_assoc, gfMul_comm (invAt a), gfMul_invAt a ha, one_gfMul]

theorem invAt_invAt {a : Byte} (ha : a ≠ 0x00#8) : invAt (invAt a) = a :=
  invAt_eq_of_gfMul_eq_one (by rw [gfMul_comm, gfMul_invAt a ha])

/-- In characteristic 2 the square of a + 1 is a² + 1, so 0x01 is the only square root of 0x01. -/
theorem eq_one_of_gfMul_self {a : Byte} (h : gfMul a a = 0x01#8) : a = 0x01#8 := by
  have hsq : gfMul (gfAdd a 0x01#8) (gfAdd a 0x01#8) = 0x00#8 := by
    rw [gfMul_gfAdd, gfMul_one, gfAdd_gfMul, one_gfMul, h, gfAdd_comm 0x01#8, gfAdd_self]
  exact (gfAdd_eq_zero a 0x01#8).mp (((gfMul_eq_zero _ _).mp hsq).elim id id)

/-- INV has one fixed point (R74). -/
theorem eq_one_of_invAt_eq_self {a : Byte} (ha : a ≠ 0x00#8) (h : invAt a = a) : a = 0x01#8 :=
  eq_one_of_gfMul_self (by simpa only [h] using gfMul_invAt a ha)

/-! ### The tables hold the powers of TABLE_GEN -/

theorem tableGen_ne_zero : Config.tableGen ≠ 0x00#8 := by decide

/-- Multiplication by TABLE_GEN is one table step (R71). -/
theorem gfMul_tableGen (v : Byte) : gfMul v Config.tableGen = tableStep v := by
  rw [gfMul_comm, gfMul_eq_iterate _ _ tableGen_ne_zero, show (logAt Config.tableGen).toNat = 1 by decide +kernel]
  rfl

theorem clmulPow_tableGen (p : Nat) : clmulPow Config.tableGen p = tableStep^[p] 0x01#8 := by
  induction p with
  | zero => rfl
  | succ p ih => rw [clmulPow, ← gfMul_eq_clmulMod, gfMul_tableGen, ih, Function.iterate_succ_apply']

/-- ALOG[i] is the i-th power of TABLE_GEN (R72). -/
theorem alogAt_eq_clmulPow {i : Nat} (hi : i < 510) : alogAt i = clmulPow Config.tableGen i := by
  rw [clmulPow_tableGen, alogAt_eq_iterate i hi]

/-- LOG[a] is an exponent that gives a (R72). -/
theorem clmulPow_logAt {a : Byte} (ha : a ≠ 0x00#8) : clmulPow Config.tableGen (logAt a).toNat = a := by
  have hle := logAt_le a ha
  rw [← alogAt_eq_clmulPow (by omega), alogAt_logAt a ha]

/-- The exponent of a power of TABLE_GEN below 255 is its logarithm (R72). -/
theorem logAt_clmulPow {e : Nat} (he : e < 255) : (logAt (clmulPow Config.tableGen e)).toNat = e := by
  rw [← alogAt_eq_clmulPow (by omega), logAt_alogAt e he]

/-- ALOG holds the cycle twice (R74). -/
theorem alogAt_add_cycleLen {i : Nat} (hi : i < 255) : alogAt (i + 255) = alogAt i := by
  rw [alogAt_eq_clmulPow (by omega), alogAt_eq_clmulPow (by omega), clmulPow_add,
    clmulPow_cycleLen tableGen_ne_zero, gfMul_one]

/-- 0xFF is no logarithm (R76). -/
theorem logAt_ne_cycleLen {a : Byte} (ha : a ≠ 0x00#8) : logAt a ≠ 0xFF#8 := by
  intro h
  have hle := logAt_le a ha
  rw [h] at hle
  exact absurd hle (by decide)

/-! ### The loop that builds the tables -/

/-- The loop of R71 collects the iterates of the table step. -/
theorem tableCycle_eq_map_iterate (n : Nat) (v : Byte) :
    tableCycle n v = (List.range n).map fun i => tableStep^[i] v := by
  induction n generalizing v with
  | zero => rfl
  | succ n ih =>
    rw [tableCycle, ih, List.range_succ_eq_map, List.map_cons, List.map_map]
    rfl

/-- The loop from 0x01 collects the entries of ALOG. -/
theorem tableCycle_one {n : Nat} (hn : n ≤ 510) : tableCycle n 0x01#8 = (List.range n).map alogAt := by
  rw [tableCycle_eq_map_iterate]
  refine List.map_congr_left fun i hi => (alogAt_eq_iterate i ?_).symm
  have := List.mem_range.mp hi
  omega

/-- The second half of ALOG repeats the first. -/
theorem map_alogAt_range : (List.range 510).map alogAt = (List.range 255).map alogAt ++ (List.range 255).map alogAt := by
  rw [show 510 = 255 + 255 from rfl, List.range_add, List.map_append, List.map_map]
  refine congrArg _ (List.map_congr_left fun i hi => ?_)
  rw [Function.comp_apply, Nat.add_comm, alogAt_add_cycleLen (List.mem_range.mp hi)]

/-! ### The obligations on the tables -/

/-- Settles O24: ALOG's entries are powers of TABLE_GEN, LOG undoes them, and INV is R73's formula. -/
theorem tablesHoldPowersOfTheGenerator : Obligations.TablesHoldPowersOfTheGenerator := by
  unfold Obligations.TablesHoldPowersOfTheGenerator
  refine ⟨fun i hi => ?_, fun a ha => ⟨logAt_le a ha, clmulPow_logAt ha, fun e he hea => ?_⟩, invAt_eq⟩
  · rw [clmulPow_mod tableGen_ne_zero, alogAt_eq_clmulPow hi]
  · rw [← hea, logAt_clmulPow (by omega)]

/-- Settles O27: T is not 0x00, its 255th power is 0x01, and a product or a power of powers of T adds or multiplies the
exponents. -/
theorem fieldResultsIgnoreTheTableGenerator : Obligations.FieldResultsIgnoreTheTableGenerator := by
  unfold Obligations.FieldResultsIgnoreTheTableGenerator
  intro T hT la lb hla _
  have hT0 : T ≠ 0x00#8 := ne_zero_of_generates hT
  refine ⟨clmulPow_add T la lb, ?_, fun p => ?_⟩
  · have hinv : gfMul (clmulPow T la) (clmulPow T (255 - la)) = 0x01#8 := by
      rw [← clmulPow_add, Nat.add_sub_cancel' (by omega), clmulPow_cycleLen hT0]
    rw [gfInv_of_ne_zero (clmulPow_ne_zero hT0 la), invAt_eq_of_gfMul_eq_one hinv]
  · rw [clmulPow_mod hT0, clmulPow_mul]

/-- Settles O25: the loop collects the iterates of the table step, which are the entries of ALOG. -/
theorem tableLoopBuildsTheListings : Obligations.TableLoopBuildsTheListings := by
  unfold Obligations.TableLoopBuildsTheListings
  rw [tableCycle_one (n := 255) (by omega), tableCycle_one (n := 256) (by omega)]
  refine ⟨map_alogAt_range, fun i hi => ?_, ?_, fun v => ?_⟩
  · rw [List.getD_eq_getElem _ _ (by simpa using hi), List.getElem_map, List.getElem_range, logAt_alogAt i hi]
  · rw [List.range_succ, List.map_append, List.map_singleton, List.getLast?_concat, alogAt_cycleLen]
  · rw [← gfMul_eq_clmulMod, gfMul_tableGen]

/-- Settles O26: LOG and ALOG undo each other on the cycle, INV is the field's inverse; the sums and the single entries
are read off the listings. -/
theorem tableContentsAndIndexBounds : Obligations.TableContentsAndIndexBounds := by
  unfold Obligations.TableContentsAndIndexBounds
  refine ⟨alogAt_logAt, logAt_alogAt, fun i hi => alogAt_add_cycleLen hi, alogAt_zero, alogAt_cycleLen,
    by decide +kernel, alogAt_ne_zero, by decide +kernel, by decide +kernel, by decide +kernel,
    fun a ha => ⟨invAt_ne_zero a ha, invAt_invAt ha, eq_one_of_invAt_eq_self ha⟩,
    invAt_eq_of_gfMul_eq_one (gfMul_one _), by decide +kernel, by decide +kernel, by decide +kernel, by decide +kernel,
    fun a b ha hb => ?_, fun a ha => ?_, fun a p _ => ?_⟩
  · have hla := logAt_le a ha
    have hlb := logAt_le b hb
    omega
  · have hla := logAt_le a ha
    omega
  · exact Nat.le_of_lt_succ (Nat.mod_lt _ (by decide))

/-! ### TBL.LOG and TBL.ALOG -/

/-- Settles O36: the entry of a nonzero byte is the exponent that gives it, and exponents end at 254. -/
theorem tblLogAnswersTheLogarithm : Obligations.TblLogAnswersTheLogarithm := by
  unfold Obligations.TblLogAnswersTheLogarithm
  refine ⟨fun s => ⟨rfl, rfl⟩,
    fun a ha => ⟨logAt a, rfl, clmulPow_logAt ha, logAt_ne_cycleLen ha, fun s => ⟨if_neg ha, answers_tblLog s ha⟩⟩,
    refusesOtherLengths .tblLog 2 fun rest i h => ?_, by decide +kernel, by decide +kernel⟩
  obtain ⟨a, rfl, -⟩ := (operandsA_eq_some _ _ _).mp h
  rfl

/-- Settles O37: an index below ALOG's length reads a power of TABLE_GEN, any other answers RANGE. -/
theorem tblAlogAnswersTheEntry : Obligations.TblAlogAnswersTheEntry := by
  unfold Obligations.TblAlogAnswersTheEntry
  refine ⟨fun idx s h => if_pos h, fun idx h => ⟨alogAt idx.toNat, rfl, alogAt_eq_clmulPow h, alogAt_ne_zero _ h,
    fun s => if_neg (Nat.not_le.mpr h)⟩, fun hi lo s h => ?_, fun hi lo s h => answers_tblAlog s h,
    refusesOtherLengths .tblAlog 3 fun rest i h => ?_, alogAt_zero, alogAt_cycleLen,
    alogAt_add_cycleLen (i := 254) (by omega), by decide +kernel⟩
  · rw [← toNat_be16] at h
    exact answers_of_exec (decode_of_operands (o := .tblAlog) rfl) (if_pos h)
  · obtain ⟨ih, il, rfl, -⟩ := (operandsI_eq_some _ _ _).mp h
    rfl

end Sys2Proof.Machine
end

section
/-! PROOFS. The field commands (41_field_ops.md): the laws of the field functions (R102), what each command answers
(R91 to R101, and R78 for TBL.INV), and that frames of other lengths are refused (R57). -/

namespace Sys2Proof.Machine

/-! ### Laws of division and power -/

/-- Division undoes multiplication (R102). -/
theorem gfDiv_gfMul_cancel (a : Byte) {b : Byte} (hb : b ≠ 0x00#8) : gfDiv (gfMul a b) b = some a := by
  rw [gfDiv_of_ne_zero _ hb, gfMul_assoc, gfMul_invAt b hb, gfMul_one]

theorem gfDiv_self {a : Byte} (ha : a ≠ 0x00#8) : gfDiv a a = some 0x01#8 := by
  rw [gfDiv_of_ne_zero a ha, gfMul_invAt a ha]

/-- The inverse is the quotient of one, absent alike at 0x00 (R96, R97). -/
theorem one_gfDiv (b : Byte) : gfDiv 0x01#8 b = gfInv b := by
  by_cases hb : b = 0x00#8
  · rw [hb, gfDiv_zero, gfInv_zero]
  · rw [gfDiv_of_ne_zero _ hb, gfInv_of_ne_zero hb, one_gfMul]

theorem zero_gfExp {p : Nat} (hp : 0 < p) : gfExp 0x00#8 p = 0x00#8 := by
  rw [gfExp, if_neg (by omega), if_pos rfl]

theorem one_gfExp (p : Nat) : gfExp 0x01#8 p = 0x01#8 := by
  induction p with
  | zero => rfl
  | succ p ih => rw [gfExp_succ, ih, gfMul_one]

theorem gfExp_cycleLen {a : Byte} (ha : a ≠ 0x00#8) : gfExp a 255 = 0x01#8 := by
  rw [gfExp_eq_clmulPow, clmulPow_cycleLen ha]

/-- The table form of R98, for a nonzero base and a nonzero power. -/
theorem gfExp_eq_alogAt {a : Byte} {p : Nat} (ha : a ≠ 0x00#8) (hp : 0 < p) :
    gfExp a p = alogAt ((logAt a).toNat * p % 255) := by
  rw [gfExp, if_neg (by omega), if_neg ha, Config.cycleLen]

/-- The table form of R95, for nonzero operands. -/
theorem gfMul_eq_alogAt {a b : Byte} (ha : a ≠ 0x00#8) (hb : b ≠ 0x00#8) :
    gfMul a b = alogAt ((logAt a).toNat + (logAt b).toNat) := if_neg (not_or.mpr ⟨ha, hb⟩)

/-- The sum of two logarithms is an index of ALOG (R35, R95). -/
theorem logAt_add_logAt_le {a b : Byte} (ha : a ≠ 0x00#8) (hb : b ≠ 0x00#8) :
    (logAt a).toNat + (logAt b).toNat ≤ 508 := Nat.add_le_add (logAt_le a ha) (logAt_le b hb)

/-- Settles O28, each law from the field's own lemma. -/
theorem fieldLawsHold : Obligations.FieldLawsHold := by
  unfold Obligations.FieldLawsHold
  exact ⟨fun a b => ⟨gfAdd_comm a b, gfAdd_zero a, gfAdd_self a⟩,
    fun a b => ⟨gfMul_comm a b, gfMul_one a, gfMul_zero a⟩,
    fun a ha => ⟨invAt a, gfInv_of_ne_zero ha, gfMul_invAt a ha⟩,
    gfDiv_zero, gfExp_zero, fun _ => zero_gfExp, gfMul_assoc, gfMul_gfAdd, fun a b => (gfMul_eq_zero a b).mp,
    fun a _ => gfDiv_gfMul_cancel a, gfExp_add⟩

/-! ### Frames of the field commands -/

/-- A command that answers in `exec` answers the frame of its opcode and operands. -/
theorem answers_of_operands {o : Opcode} {rest r : Frame} {i : Instr} {s : State} (ho : operandsOf o rest = some i)
    (he : exec i s = .next (s.answer r)) : Answers s (o.byte :: rest) r :=
  answers_of_exec (decode_of_operands ho) he

/-- A command whose format has one length refuses every other (R49, R57). -/
theorem refusesOtherLengths_of_format (o : Opcode) {n : Nat} (h : ∀ rest, formatLength o.format rest = some n) :
    RefusesOtherLengths o.byte n := by
  intro s args hl
  refine answers_of_requiredLength_ne (fun hr => hl ?_) s
  rw [requiredLength_byte_cons, h] at hr
  exact (Option.some.inj hr).symm

/-! ### What the commands answer -/

theorem exec_gfMul (a b : Byte) (s : State) : exec (.gfMul a b) s = .next (s.answer [0x00#8, clmulMod a b]) := by
  rw [← gfMul_eq_clmulMod]
  rfl

theorem exec_gfExp (a : Byte) (power : Half) (s : State) :
    exec (.gfExp a power) s = .next (s.answer [0x00#8, clmulPow a power.toNat]) := by
  rw [← gfExp_eq_clmulPow]
  rfl

theorem exec_gfDiv_of_ne_zero (a : Byte) {b : Byte} (hb : b ≠ 0x00#8) (s : State) :
    exec (.gfDiv a b) s = .next (s.answer [0x00#8, gfMul a (invAt b)]) := by
  rw [exec, execGfDiv, gfDiv_of_ne_zero a hb]
  rfl

theorem exec_gfInv_of_ne_zero {a : Byte} (ha : a ≠ 0x00#8) (s : State) :
    exec (.gfInv a) s = .next (s.answer [0x00#8, invAt a]) := by
  rw [exec, execGfInv, gfInv_of_ne_zero ha]
  rfl

theorem exec_tblInv_of_ne_zero {a : Byte} (ha : a ≠ 0x00#8) (s : State) :
    exec (.tblInv a) s = .next (s.answer [0x00#8, invAt a]) := if_neg ha

theorem exec_gfEq_self (a : Byte) (s : State) : exec (.gfEq a a) s = .next (s.answer [0x00#8, 0x01#8]) := by
  rw [exec, execGfEq, gfEq, beq_self_eq_true]
  rfl

theorem exec_gfEq_of_ne {a b : Byte} (h : a ≠ b) (s : State) :
    exec (.gfEq a b) s = .next (s.answer [0x00#8, 0x00#8]) := by
  rw [exec, execGfEq, gfEq, beq_false_of_ne h]
  rfl

/-! ### The obligations on the field commands -/

/-- Settles O31: the table product is the product of R103. -/
theorem mulAnswersTheFieldProduct : Obligations.MulAnswersTheFieldProduct := by
  unfold Obligations.MulAnswersTheFieldProduct
  refine ⟨exec_gfMul, fun a b s => answers_of_operands (o := .gfMul) rfl (exec_gfMul a b s), gfMul_eq_clmulMod,
    refusesOtherLengths_of_format .gfMul fun _ => rfl, fun a b ha hb => ⟨logAt_add_logAt_le ha hb, ?_⟩,
    fun a b => ?_, by decide, by decide, by decide, by decide⟩
  · rw [← gfMul_eq_clmulMod, gfMul_eq_alogAt ha hb]
  · simp only [← gfMul_eq_clmulMod, gfMul_zero, zero_gfMul, gfMul_one, and_self]

/-- Settles O32: the quotient by a nonzero b is a · INV[b], and times b it is a. -/
theorem divAnswersTheQuotient : Obligations.DivAnswersTheQuotient := by
  unfold Obligations.DivAnswersTheQuotient
  refine ⟨fun a s => ⟨rfl, answers_of_operands (o := .gfDiv) rfl rfl⟩,
    fun a b hb => ⟨gfMul a (invAt b), gfMul_invAt_cancel a hb, ?_, ?_, fun s => ?_⟩,
    refusesOtherLengths_of_format .gfDiv fun _ => rfl, gfDiv_one, fun _ => gfDiv_self, one_gfDiv, by decide +kernel⟩
  · rintro rfl
    exact zero_gfMul _
  · intro inv hinv
    rw [Option.some.inj ((gfInv_of_ne_zero hb).symm.trans hinv)]
  · have he := exec_gfDiv_of_ne_zero a hb s
    exact ⟨he, answers_of_operands (o := .gfDiv) rfl he⟩

/-- Settles O33: both commands read INV[a], which is the field's inverse and R73's formula. -/
theorem inverseCommandsAnswerTheInverse : Obligations.InverseCommandsAnswerTheInverse := by
  unfold Obligations.InverseCommandsAnswerTheInverse
  refine ⟨fun s => ⟨rfl, rfl, answers_of_operands (o := .gfInv) rfl rfl, answers_of_operands (o := .tblInv) rfl rfl⟩,
    fun a ha => ⟨invAt a, gfMul_invAt a ha, rfl, invAt_eq a ha, ?_, fun s => ?_⟩,
    refusesOtherLengths_of_format .gfInv fun _ => rfl, refusesOtherLengths_of_format .tblInv fun _ => rfl,
    by decide +kernel, by decide +kernel, by decide +kernel, by decide +kernel⟩
  · rw [gfInv_of_ne_zero (invAt_ne_zero a ha), invAt_invAt ha]
  · have he := exec_gfInv_of_ne_zero ha s
    exact ⟨he, exec_tblInv_of_ne_zero ha s, answers_of_operands (o := .gfInv) rfl he, answers_tblInv s ha⟩

/-- Settles O34: gf_exp is the p-fold product, and the powers of a nonzero element repeat after 255. -/
theorem expAnswersThePower : Obligations.ExpAnswersThePower := by
  unfold Obligations.ExpAnswersThePower
  refine ⟨exec_gfExp, fun a hi lo s => ?_, refusesOtherLengths_of_format .gfExp fun _ => rfl, gfExp_zero,
    fun _ => zero_gfExp, fun _ _ => gfExp_eq_alogAt, gfExp_eq_clmulPow, gfExp_one,
    fun a ha => ⟨gfExp_cycleLen ha, ?_⟩, one_gfExp, by decide +kernel, by decide +kernel, by decide +kernel,
    by decide +kernel⟩
  · rw [← toNat_be16]
    exact answers_of_operands (o := .gfExp) rfl (exec_gfExp a (be16 hi lo) s)
  · rw [gfExp_succ, gfExp_cycleLen ha, one_gfMul]

/-- Settles O29: the four meanings respond with their constant or operand. -/
theorem constantsAndIdentitiesAnswer : Obligations.ConstantsAndIdentitiesAnswer := by
  unfold Obligations.ConstantsAndIdentitiesAnswer
  exact ⟨fun s => ⟨rfl, rfl, answers_of_operands (o := .gfZero) rfl rfl, answers_of_operands (o := .gfOne) rfl rfl⟩,
    fun a s => ⟨rfl, rfl, answers_of_operands (o := .gfNeg) rfl rfl, answers_of_operands (o := .gfFromb) rfl rfl⟩,
    refusesOtherLengths_of_format .gfZero fun _ => rfl, refusesOtherLengths_of_format .gfOne fun _ => rfl,
    refusesOtherLengths_of_format .gfNeg fun _ => rfl, refusesOtherLengths_of_format .gfFromb fun _ => rfl,
    rfl, gfAdd_self⟩

/-- Settles O30: both meanings respond with the exclusive or. -/
theorem addAndSubAnswerXor : Obligations.AddAndSubAnswerXor := by
  unfold Obligations.AddAndSubAnswerXor
  exact ⟨fun a b s => ⟨rfl, rfl⟩,
    fun a b s => ⟨answers_of_operands (o := .gfAdd) rfl rfl, answers_of_operands (o := .gfSub) rfl rfl⟩,
    refusesOtherLengths_of_format .gfAdd fun _ => rfl, refusesOtherLengths_of_format .gfSub fun _ => rfl,
    fun a b => ⟨gfAdd_zero a, gfAdd_self a, gfAdd_comm a b, gfSub_eq_gfAdd a b, zero_gfAdd b, gfAdd_self a⟩,
    by decide, by decide, by decide⟩

/-- Settles O35: equal operands, different operands, and a sum of zero exactly for equal ones. -/
theorem eqAnswersByteEquality : Obligations.EqAnswersByteEquality := by
  unfold Obligations.EqAnswersByteEquality
  refine ⟨fun a s => ⟨exec_gfEq_self a s, answers_of_operands (o := .gfEq) rfl (exec_gfEq_self a s)⟩,
    fun a b s h => ⟨exec_gfEq_of_ne h s, answers_of_operands (o := .gfEq) rfl (exec_gfEq_of_ne h s)⟩,
    refusesOtherLengths_of_format .gfEq fun _ => rfl, fun a b => ?_⟩
  rw [gfEq, beq_iff_eq, gfAdd_eq_zero]

end Sys2Proof.Machine
end

section
/-! PROOFS. The polynomial datapath (42_polynomial.md): construction (R111, R112), the laws of addition, evaluation,
multiplication and division (R113 to R117, R121), what POLY.EVAL and POLY.MUL answer (R118, R119), and that the arithmetic
commands answer alike in every state (R122, R173). -/

namespace Sys2Proof.Machine

/-! ### Construction -/

theorem Normalised.ne_nil {p : List Byte} (h : Normalised p) : p ≠ [] := List.ne_nil_of_length_pos h.length_pos

/-- A sequence of zeros denotes zero. -/
theorem pnorm_of_forall_eq_zero {s : List Byte} (h : ∀ c ∈ s, c = 0x00#8) : pnorm s = zeroPoly :=
  (pnorm_eq_zeroPoly s).mpr (List.eq_replicate_of_mem h)

/-- Also where no root is asked for (k > n) the generator polynomial is a polynomial value, the constant 1. -/
theorem genpoly_normalised (n k : Nat) (g : Byte) : Normalised (genpoly n k g) := by
  rcases Nat.le_total k n with h | h
  · obtain ⟨t, ht⟩ := genpoly_head n k g h
    exact .inr ⟨0x01#8, t, ht, by decide⟩
  · refine .inr ⟨0x01#8, [], ?_, by decide⟩
    rw [genpoly, Nat.sub_eq_zero_of_le h]
    rfl

/-- Settles O38: construction's cases, and the value at a point does not see leading zeros. -/
theorem constructionNormalises : Obligations.ConstructionNormalises := by
  unfold Obligations.ConstructionNormalises
  refine ⟨fun s => ⟨pnorm_normalised s, (pnorm_normalised s).ne_nil, pnorm_pnorm s⟩,
    fun s => pnorm_of_forall_eq_zero, fun j c cs hc => ?_, peval_pnorm⟩
  rw [pnorm_zeros_append, pnorm_of_head_ne_zero cs hc]

/-! ### Division -/

/-- Division by a divisor that denotes zero is not defined (R117, U5). -/
theorem pdivrem_of_zero_divisor (a : List Byte) {d : List Byte} (h : pnorm d = zeroPoly) : pdivrem a d = none := by
  simp only [pdivrem, h, zeroPoly, if_true]

/-- Normalising the divisor first changes nothing. -/
theorem pdivrem_pnorm_right (a d : List Byte) : pdivrem a (pnorm d) = pdivrem a d := by
  simp only [pdivrem, pnorm_pnorm]

/-- Quotient and remainder are polynomial values (R112). -/
theorem pdivrem_normalised {a d q r : List Byte} (h : pdivrem a d = some (q, r)) : Normalised q ∧ Normalised r := by
  by_cases hd : pnorm d = zeroPoly
  · simp [pdivrem_of_zero_divisor a hd] at h
  · obtain ⟨q', r', hqr, hq, hr, -, -⟩ := pdivrem_spec a d hd
    obtain ⟨rfl, rfl⟩ : q = q' ∧ r = r' := by simpa [h] using hqr
    exact ⟨hq, hr⟩

/-- A dividend shorter than the divisor is its own remainder. -/
theorem pdivrem_of_shorter {a d : List Byte} (hd : pnorm d ≠ zeroPoly) (h : (pnorm a).length < (pnorm d).length) :
    pdivrem a d = some (zeroPoly, pnorm a) := by
  refine pdivrem_unique a d _ _ hd (.inl rfl) (pnorm_normalised a) ?_ (.inr h)
  rw [zeroPoly_pmul, zeroPoly_padd, pnorm_pnorm]

/-- No polynomial value is shorter than a constant, so division by a nonzero constant leaves no remainder. -/
theorem pdivrem_constant (a : List Byte) {c : Byte} (hc : c ≠ 0x00#8) : ∃ q, pdivrem a [c] = some (q, zeroPoly) := by
  have hn : pnorm [c] = [c] := pnorm_of_head_ne_zero [] hc
  have hd : pnorm [c] ≠ zeroPoly := fun h => hc (List.cons.inj (hn.symm.trans h)).1
  obtain ⟨q, r, hqr, -, hr, -, hlt⟩ := pdivrem_spec a [c] hd
  rcases hlt with rfl | hlt
  · exact ⟨q, hqr⟩
  · have hpos := hr.length_pos
    rw [hn, List.length_singleton] at hlt
    omega

theorem pdivrem_self {p : List Byte} (hp : pnorm p ≠ zeroPoly) : pdivrem p p = some ([0x01#8], zeroPoly) := by
  have hone : pmul [0x01#8] p = pnorm p := by rw [pmul_comm, pmul_one]
  rw [← pdivrem_pnorm, ← hone, pdivrem_pmul [0x01#8] p hp]
  rfl

/-- Settles O45: existence and uniqueness are the division law, the special cases follow from them. -/
theorem divisionGivesQuotientAndRemainder : Obligations.DivisionGivesQuotientAndRemainder := by
  unfold Obligations.DivisionGivesQuotientAndRemainder
  refine ⟨fun a d hd => ?_, fun a d => pdivrem_of_shorter, fun a c => pdivrem_constant a, fun p => pdivrem_self,
    fun a d => pdivrem_of_zero_divisor a, padd_self, by decide +kernel⟩
  obtain ⟨q, r, hqr, -, -, hsum, hlt⟩ := pdivrem_spec a d hd
  refine ⟨q, r, hqr, hsum, hlt, fun q' r' hq' hr' hsum' hlt' => ?_⟩
  have h := pdivrem_unique a d q' r' hd hq' hr' hsum' hlt'
  simpa [hqr, eq_comm] using h

/-- Settles O39: each function ends in construction and begins with it. -/
theorem polynomialResultsAreNormalised : Obligations.PolynomialResultsAreNormalised := by
  unfold Obligations.PolynomialResultsAreNormalised
  intro a b
  refine ⟨padd_normalised a b, padd_normalised a b, pmul_normalised a b, fun q r => pdivrem_normalised, ?_, ?_, ?_, ?_,
    peval_pnorm a, genpoly_normalised⟩
  · rw [padd_pnorm_left, padd_pnorm_right]
  · rw [psub, psub, padd_pnorm_left, padd_pnorm_right]
  · rw [pmul_pnorm_left, pmul_pnorm_right]
  · rw [pdivrem_pnorm, pdivrem_pnorm_right]

/-! ### Addition -/

/-- Settles O40: leading zeros are stripped before the addition, the rest are the group laws. -/
theorem polynomialAdditionLaws : Obligations.PolynomialAdditionLaws := by
  unfold Obligations.PolynomialAdditionLaws
  refine ⟨fun a b h ha => padd_of_length_eq a b h (List.length_pos_iff.mpr ha), fun a b j => ?_, padd_comm, padd_assoc,
    fun a => ⟨padd_zeroPoly a, padd_self a⟩, peval_padd, fun _ _ => rfl, by decide +kernel⟩
  rw [← padd_pnorm_left, pnorm_zeros_append, padd_pnorm_left]

/-! ### Evaluation -/

/-- One more coefficient, one more turn of Horner's loop (R115). -/
theorem peval_concat (p : List Byte) (c x : Byte) : peval (p ++ [c]) x = gfAdd c (gfMul (peval p x) x) := by
  rw [peval, List.foldl_append]
  rfl

theorem peval_zeros_append (j : Nat) (p : List Byte) (x : Byte) : peval (zeros j ++ p) x = peval p x := by
  rw [peval_append, peval_zeros, zero_gfMul, zero_gfAdd]

/-- At 0x00 only the constant coefficient counts. -/
theorem peval_concat_zero (p : List Byte) (c : Byte) : peval (p ++ [c]) 0x00#8 = c := by
  rw [peval_concat, gfMul_zero, gfAdd_zero]

/-- At 0x01 every coefficient counts once. -/
theorem peval_one (p : List Byte) : peval p 0x01#8 = p.foldl gfAdd 0x00#8 := by
  have h : (fun acc c => gfAdd c (gfMul acc 0x01#8)) = gfAdd := by
    funext acc c
    rw [gfMul_one, gfAdd_comm]
  rw [peval, h]

/-- Settles O41: Horner's loop unrolled from its first coefficient and from its last. -/
theorem hornerEvaluatesThePolynomial : Obligations.HornerEvaluatesThePolynomial := by
  unfold Obligations.HornerEvaluatesThePolynomial
  exact ⟨peval_nil, peval_cons, peval_concat, peval_zeros_append, peval_concat_zero, peval_one⟩

/-! ### The coefficients of a product -/

/-- The sum f 0 + ... + f (n - 1) in the field. -/
def gfSum (f : Nat → Byte) (n : Nat) : Byte := (List.range n).foldl (fun acc i => gfAdd acc (f i)) 0x00#8

/-- A sum with its last summand taken out. -/
theorem gfSum_succ (f : Nat → Byte) (n : Nat) : gfSum f (n + 1) = gfAdd (gfSum f n) (f n) := by
  rw [gfSum, List.range_succ, List.foldl_append]
  rfl

/-- A sum with its first summand taken out. -/
theorem gfSum_succ' (f : Nat → Byte) (n : Nat) : gfSum f (n + 1) = gfAdd (f 0) (gfSum (fun i => f (i + 1)) n) := by
  induction n with
  | zero => exact gfAdd_comm _ _
  | succ n ih => rw [gfSum_succ, ih, gfSum_succ (fun i => f (i + 1)), gfAdd_assoc]

theorem gfSum_zero (n : Nat) : gfSum (fun _ => 0x00#8) n = 0x00#8 := by
  induction n with
  | zero => rfl
  | succ n ih => rw [gfSum_succ, ih, gfAdd_zero]

theorem getD_zeros (k t : Nat) : (zeros k).getD t 0x00#8 = 0x00#8 := by
  rw [List.getD_eq_getElem?_getD]
  exact List.getElem?_getD_replicate_default_eq _ k t

theorem getD_addSeq {a b : List Byte} (h : a.length = b.length) (t : Nat) :
    (addSeq a b).getD t 0x00#8 = gfAdd (a.getD t 0x00#8) (b.getD t 0x00#8) := by
  induction a generalizing b t with
  | nil =>
    obtain rfl := List.length_eq_zero_iff.mp h.symm
    rw [addSeq_nil, List.getD_nil, gfAdd_zero]
  | cons x a ih =>
    cases b with
    | nil => simp at h
    | cons y b =>
      cases t with
      | zero => rfl
      | succ t => exact ih (by simpa using h) t

/-- A scaled sequence, with zeros behind it, at any place. -/
theorem getD_scaleSeq_append_zeros (c : Byte) (b : List Byte) (k t : Nat) :
    (scaleSeq c b ++ zeros k).getD t 0x00#8 = gfMul c (b.getD t 0x00#8) := by
  induction b generalizing t with
  | nil => rw [scaleSeq_nil, List.nil_append, getD_zeros, List.getD_nil, gfMul_zero]
  | cons y b ih =>
    cases t with
    | zero => rfl
    | succ t => exact ih t

/-- Coefficient t of the convolution is the sum of a[i]·b[t-i] (R116). -/
theorem getD_conv (a : List Byte) {b : List Byte} (hb : 1 ≤ b.length) (t : Nat) :
    (conv a b).getD t 0x00#8 = gfSum (fun i => gfMul (a.getD i 0x00#8) (b.getD (t - i) 0x00#8)) (t + 1) := by
  induction a generalizing t with
  | nil => simp only [conv, getD_zeros, List.getD_nil, zero_gfMul, gfSum_zero]
  | cons c cs ih =>
    have hl : (scaleSeq c b ++ zeros cs.length).length = (0x00#8 :: conv cs b).length := by
      rw [List.length_append, length_scaleSeq, length_zeros, List.length_cons, length_conv cs b hb]
      omega
    rw [conv_cons, getD_addSeq hl, getD_scaleSeq_append_zeros, gfSum_succ']
    cases t with
    | zero => rfl
    | succ t => simp only [List.getD_cons_succ, List.getD_cons_zero, Nat.sub_zero, Nat.add_sub_add_right, ih]

/-! ### Multiplication -/

/-- The product of two polynomials that are not zero is the convolution of their normal forms. -/
theorem pmul_eq_conv_pnorm {a b : List Byte} (ha : pnorm a ≠ zeroPoly) (hb : pnorm b ≠ zeroPoly) :
    pmul a b = conv (pnorm a) (pnorm b) := by
  obtain ⟨x, as, hxa, hx⟩ := normalised_head (pnorm_normalised a) ha
  obtain ⟨y, bs, hyb, hy⟩ := normalised_head (pnorm_normalised b) hb
  rw [← pmul_pnorm_left, ← pmul_pnorm_right, hxa, hyb, pmul_of_heads x y as bs hx hy]

theorem pmul_of_zero {a b : List Byte} (h : pnorm a = zeroPoly ∨ pnorm b = zeroPoly) : pmul a b = zeroPoly := by
  rcases h with h | h
  · rw [← pmul_pnorm_left, h, zeroPoly_pmul]
  · rw [← pmul_pnorm_right, h, pmul_zeroPoly]

theorem pmul_padd (a b c : List Byte) : pmul a (padd b c) = padd (pmul a b) (pmul a c) := by
  rw [pmul_comm, padd_pmul, pmul_comm b, pmul_comm c]

/-- Settles O43: the product of nonzero operands is the convolution, whose coefficients are the sums; the rest are the
ring laws. -/
theorem polynomialProductLaws : Obligations.PolynomialProductLaws := by
  unfold Obligations.PolynomialProductLaws
  refine ⟨fun a b => pmul_of_zero, fun a b ha hb => ⟨length_pmul ha hb, fun t _ => ?_⟩, pmul_comm, pmul_assoc, pmul_padd,
    pmul_one, peval_pmul⟩
  rw [pmul_eq_conv_pnorm ha hb]
  exact getD_conv (pnorm a) (length_pnorm_pos b) t

/-! ### The polynomial commands -/

/-- An opcode followed by what its format does not take is answered ILLEGAL_COMMAND (R49, R57). -/
theorem answers_of_not_takes {o : Opcode} {rest : Frame} (h : ¬ o.format.Takes rest) (s : State) :
    Answers s (o.byte :: rest) [0x07#8] := by
  cases ho : operandsOf o rest with
  | none => exact answers_of_wrong_length ho s
  | some i => exact absurd ((exists_operandsOf_iff o rest).mp ⟨i, ho⟩) h

/-- Settles O42: the meaning responds with the value, and the port reads the sequence its length field announces. -/
theorem polyEvalAnswersTheValue : Obligations.PolyEvalAnswersTheValue := by
  unfold Obligations.PolyEvalAnswersTheValue
  refine ⟨fun _ _ _ => rfl, fun x hi lo c s hc => ?_, fun x hi lo c s hc => ?_, fun rest s hr => ?_,
    fun j c x => ⟨peval_zeros_append j c x, peval_zeros j x⟩, fun c v => ⟨peval_concat_zero c v, peval_one c⟩,
    by decide +kernel⟩
  · exact answers_of_operands (o := .polyEval) (if_pos (hc.trans (toNat_be16 hi lo).symm)) rfl
  · refine answers_of_not_takes (o := .polyEval) ?_ s
    rintro ⟨x', hi', lo', c', heq, hc'⟩
    cases heq
    exact hc hc'
  · refine answers_of_not_takes (o := .polyEval) ?_ s
    rintro ⟨x, hi, lo, c, rfl, -⟩
    simp only [List.length_cons] at hr
    omega

theorem exec_polyMul_of_le {a b : List Byte} (h : a.length + b.length ≤ 65536) (s : State) :
    exec (.polyMul a b) s = .next (s.answer (sequenceFrame (pmul a b))) := if_neg (Nat.not_lt.mpr h)

/-- Settles O44: the meaning's two branches, the bound on a product's length, and the two sequences that the port reads. -/
theorem polyMulAnswersTheProduct : Obligations.PolyMulAnswersTheProduct := by
  unfold Obligations.PolyMulAnswersTheProduct
  refine ⟨fun a b s h => if_pos h, fun a b s h => ⟨exec_polyMul_of_le h s, length_pmul_le h (by decide)⟩,
    fun ah al bh bl a b s ha hb => ?_, fun ah al bh bl ab s hab => ?_, fun rest s hr => ?_, fun a b s h hz => ?_,
    by decide +kernel⟩
  · rw [← toNat_be16] at ha hb
    have ho : operandsOf .polyMul (ah :: al :: bh :: bl :: (a ++ b)) = some (.polyMul a b) :=
      (operandsPM_eq_some _ _ _).mpr ⟨ah, al, bh, bl, a, b, rfl, ha, hb, rfl⟩
    exact runFrame_of_decode (decode_of_operands ho) s
  · refine answers_of_not_takes (o := .polyMul) ?_ s
    rintro ⟨ah', al', bh', bl', ab', heq, hab'⟩
    cases heq
    exact hab hab'
  · refine answers_of_not_takes (o := .polyMul) ?_ s
    rintro ⟨ah, al, bh, bl, ab, rfl, -⟩
    simp only [List.length_cons] at hr
    omega
  · rw [exec_polyMul_of_le h, pmul_of_zero hz]
    rfl

/-! ### Independence of the configuration -/

/-- A command that answers a status under some condition on its operands, and a value otherwise, answers alike in every
state. -/
theorem exists_answer_of_ite (c : Prop) [Decidable c] (st : Status) (r : Response) :
    ∃ f, ∀ s, (if c then raise st s else respond r s) = .next (s.answer f) := by
  by_cases h : c
  · exact ⟨[st.code], fun s => if_pos h⟩
  · exact ⟨r.bytes, fun s => if_neg h⟩

/-- A GF, TBL or POLY command answers alike in every state (R122, R173). -/
theorem exists_answer_of_opcode_lt {i : Instr} (h : i.opcode.byte.toNat < 0x30) :
    ∃ r, ∀ s, exec i s = .next (s.answer r) := by
  cases i with
  | gfZero | gfOne | gfAdd | gfSub | gfMul | gfExp | gfNeg | gfEq | gfFromb | polyEval => exact ⟨_, fun _ => rfl⟩
  | gfDiv a b =>
    by_cases hb : b = 0x00#8
    · subst hb
      exact ⟨_, fun _ => rfl⟩
    · exact ⟨_, exec_gfDiv_of_ne_zero a hb⟩
  | gfInv a =>
    by_cases ha : a = 0x00#8
    · subst ha
      exact ⟨_, fun _ => rfl⟩
    · exact ⟨_, exec_gfInv_of_ne_zero ha⟩
  | tblLog | tblAlog | tblInv | polyMul => exact exists_answer_of_ite _ _ _
  | rsConfig | rsEncode | rsCheck | rsGenrd | rsStat => simp [Instr.opcode, Opcode.byte] at h

/-- Settles O23: a malformed frame is refused in every state, and a well-formed one with such an opcode is a command
that answers alike in every state. -/
theorem arithmeticIgnoresTheConfiguration : Obligations.ArithmeticIgnoresTheConfiguration := by
  unfold Obligations.ArithmeticIgnoresTheConfiguration
  intro f op hf hop
  cases hd : decode f with
  | error e => exact ⟨_, runFrame_of_error hd⟩
  | ok i =>
    obtain ⟨o, rest, rfl, ho⟩ := (decode_eq_ok f i).mp hd
    obtain ⟨hio, -, -⟩ := spells_of_operandsOf ho
    obtain rfl : o.byte = op := Option.some.inj hf
    obtain ⟨r, hr⟩ := exists_answer_of_opcode_lt (i := i) (hio ▸ hop)
    exact ⟨r, fun s => answers_of_exec hd (hr s)⟩

end Sys2Proof.Machine
end

section
/-! PROOFS. The configuration (43_reed_solomon.md R130 to R132, R135, R138, R141, R144): what writes the registers, the
tests and the installation of RS.CONFIG, what RS.GENRD and RS.STAT read out, and that a response and the new registers
are a function of the frame and the registers alone. -/

namespace Sys2Proof.Machine

/-! ### RS.CONFIG -/

/-- Operands that pass the tests of R132 are installed. -/
theorem exec_rsConfig_of_valid {n k : Half} (hk : 1 ≤ k.toNat) (hkn : k.toNat ≤ n.toNat) (hn : n.toNat ≤ 256) (g : Byte)
    (s : State) : exec (.rsConfig n k g) s =
      .next (State.answer { s with regs := s.regs.install n k g (genpoly n.toNat k.toNat g) } [0x00#8]) := by
  rcases exec_rsConfig_cases n k g s with ⟨h, -⟩ | ⟨-, h, -⟩ | ⟨-, h, -⟩ | ⟨-, -, h, -⟩ | ⟨-, -, -, he⟩
  case inr.inr.inr.inr => exact he
  all_goals omega

/-- Operands that fail a test of R132 are answered with a status other than OK, and nothing is written. -/
theorem exec_rsConfig_of_invalid {n k : Half} (h : k.toNat = 0 ∨ n.toNat < k.toNat ∨ 256 < n.toNat) (g : Byte)
    (s : State) : ∃ code : Byte, code ≠ 0x00#8 ∧ exec (.rsConfig n k g) s = .next (s.answer [code]) := by
  rcases exec_rsConfig_cases n k g s with ⟨-, he⟩ | ⟨-, -, he⟩ | ⟨-, -, he⟩ | ⟨-, -, -, he⟩ | ⟨hk, hkn, hn, -⟩
  · exact ⟨_, by decide, he⟩
  · exact ⟨_, by decide, he⟩
  · exact ⟨_, by decide, he⟩
  · exact ⟨_, by decide, he⟩
  · omega

/-- GEN after an installation: the polynomial, and above it what GEN held before (R33). -/
theorem Regs.read_install_gen (r : Regs) (h : r.gen.wf) (n k : Half) (g : Byte) (G : List Byte) (i : Nat) :
    (r.install n k g G).gen.read i = if i < G.length then G.getD i 0x00#8 else r.gen.read i := by
  simp [Memory.read_writeFrom r.gen 0 G h]

/-- GEN_LEN holds the length of every generator polynomial (R20, R133). -/
theorem Regs.toNat_install_genLen (r : Regs) {n k : Half} (g : Byte) (hkn : k.toNat ≤ n.toNat) (hn : n.toNat ≤ 256) :
    (r.install n k g (genpoly n.toNat k.toNat g)).genLen.toNat = n.toNat - k.toNat + 1 := by
  rw [Regs.install_genLen, BitVec.toNat_ofNat, length_genpoly _ _ g hkn]
  omega

/-- Settles O48: the branches of the meaning in their order, and the fixed length of the frame. -/
theorem configTestsInOrder : Obligations.ConfigTestsInOrder := by
  unfold Obligations.ConfigTestsInOrder
  refine ⟨fun n k g s hn => if_pos hn, fun n k g s hn hk => (if_neg hn).trans (if_pos hk), fun n k g s hk hn => ?_,
    fun n k g s hn hn' hkn => ?_, fun nh nl kh kl g s => ?_,
    fun n k g s hk hkn hn => ⟨_, exec_rsConfig_of_valid hk hkn hn g s, rfl⟩,
    refusesOtherLengths_of_format .rsConfig fun _ => rfl⟩
  · exact (if_neg (by omega)).trans ((if_neg hk).trans (if_pos hn))
  · exact (if_neg hn).trans ((if_neg (by omega)).trans ((if_neg (Nat.not_lt.mpr hn')).trans (if_pos hkn)))
  · exact runFrame_of_decode (decode_of_operands (o := .rsConfig) (rest := [nh, nl, kh, kl, g]) rfl) s

/-- Settles O49: the registers after the installation, field by field. -/
theorem configInstallsTheInstance : Obligations.ConfigInstallsTheInstance := by
  unfold Obligations.ConfigInstallsTheInstance
  refine ⟨fun n k g s hwf hk hkn hn => ?_, fun n k g s h => exec_rsConfig_of_invalid h g s⟩
  have hlen : (s.regs.install n k g (genpoly n.toNat k.toNat g)).genLen.toNat = n.toNat - k.toNat + 1 :=
    s.regs.toNat_install_genLen g hkn hn
  have hG : (genpoly n.toNat k.toNat g).length = n.toNat - k.toNat + 1 := length_genpoly _ _ g hkn
  refine ⟨_, exec_rsConfig_of_valid hk hkn hn g s, rfl, rfl, rfl, toNat_setWidth_nine n hn,
    toNat_setWidth_nine k (hkn.trans hn), rfl, hlen, fun i hi => ?_, fun i hi => ?_⟩
  · exact (s.regs.read_install_gen hwf n k g _ i).trans (if_pos (hG ▸ hlen ▸ hi))
  · exact (s.regs.read_install_gen hwf n k g _ i).trans (if_neg (Nat.not_lt.mpr (hG ▸ hlen ▸ hi)))

/-! ### What writes the registers -/

/-- A command changes a register only if it is an RS.CONFIG whose operands pass the tests of R132. -/
theorem exec_changes_regs {i : Instr} {s t : State} (h : exec i s = .next t) (hr : t.regs ≠ s.regs) :
    ∃ n k g, i = .rsConfig n k g ∧ 1 ≤ k.toNat ∧ k.toNat ≤ n.toNat ∧ n.toNat ≤ 256 ∧
      t.responses = s.responses ++ [[0x00#8]] := by
  rcases exec_next h with ⟨r, rfl, -⟩ | ⟨n, k, g, hi, hk, hkn, hn, rfl⟩
  · exact absurd rfl hr
  · exact ⟨n, k, g, hi, hk, hkn, hn, rfl⟩

/-- Settles O19: of the step's four cases, one runs a command, one resets, and the others keep the registers. -/
theorem onlyConfigAndResetWriteRegisters : Obligations.OnlyConfigAndResetWriteRegisters := by
  unfold Obligations.OnlyConfigAndResetWriteRegisters
  intro s t h hr
  rcases step_next h with ⟨-, rfl⟩ | ⟨f, rest, i, hin, hd, he⟩ | ⟨f, rest, e, -, -, rfl⟩ | ⟨rest, hin, rfl⟩
  case inl => exact absurd rfl hr
  case inr.inl =>
    obtain ⟨n, k, g, rfl, hk, hkn, hn, hresp⟩ := exec_changes_regs he hr
    obtain ⟨-, rfl⟩ := encodeInvertsDecode f _ hd
    exact .inr ⟨n, k, g, rest, hin, hk, hkn, hn, hresp⟩
  case inr.inr.inl => exact absurd rfl hr
  case inr.inr.inr => exact .inl ⟨rest, hin, rfl⟩

/-! ### RS.GENRD and RS.STAT -/

theorem exec_rsGenrd_of_not_configured {s : State} (h : s.regs.cfgValid = false) :
    exec .rsGenrd s = .next (s.answer [0x06#8]) := if_pos h

theorem exec_rsGenrd_of_valid {s : State} (hs : s.Inv) (hv : s.regs.cfgValid = true) :
    exec .rsGenrd s = .next (s.answer (sequenceFrame s.regs.generator)) := by
  rw [exec, execRsGenrd, if_neg (by simp [hv]), s.regs.genSeq_eq hs hv, ← s.regs.generator_eq hs hv]
  rfl

/-- The generator polynomial is led by 0x01 (R138). -/
theorem Regs.head_generator (r : Regs) (h : r.Inv) (hv : r.cfgValid = true) : r.generator.head? = some 0x01#8 := by
  obtain ⟨t, ht⟩ := genpoly_head r.cfgN.toNat r.cfgK.toNat r.cfgG (h.kLeN hv)
  rw [r.generator_eq h hv, ht, List.head?_cons]

/-- Settles O58: GEN[0 .. GEN_LEN] is the generator polynomial of the invariant. -/
theorem genrdAnswersTheGenerator : Obligations.GenrdAnswersTheGenerator := by
  unfold Obligations.GenrdAnswersTheGenerator
  refine ⟨fun s hv => ?_, fun s hs hv => ?_, refusesOtherLengths_of_format .rsGenrd fun _ => rfl⟩
  · have he := exec_rsGenrd_of_not_configured hv
    exact ⟨he, answers_of_operands (o := .rsGenrd) rfl he⟩
  · have he := exec_rsGenrd_of_valid hs hv
    exact ⟨he, answers_of_operands (o := .rsGenrd) rfl he, s.regs.length_generator hs hv,
      s.regs.length_generator_le hs hv, s.regs.head_generator hs hv⟩

/-- A 9-bit register as two bytes, most significant first (R55). -/
theorem toNat_hi8_lo8_setWidth (v : Reg9) :
    256 * (hi8 (v.setWidth 16)).toNat + (lo8 (v.setWidth 16)).toNat = v.toNat := by
  rw [← toNat_be16, be16_hi8_lo8, BitVec.toNat_setWidth]
  omega

/-- Settles O59: the response carries each register, and right after reset each is zero. -/
theorem statAnswersTheRegisters : Obligations.StatAnswersTheRegisters := by
  unfold Obligations.StatAnswersTheRegisters
  refine ⟨fun s => ⟨boolByte s.regs.cfgValid, hi8 (s.regs.cfgN.setWidth 16), lo8 (s.regs.cfgN.setWidth 16),
    hi8 (s.regs.cfgK.setWidth 16), lo8 (s.regs.cfgK.setWidth 16), rfl, answers_of_operands (o := .rsStat) rfl rfl,
    fun hv => by rw [hv]; rfl, fun hv => by rw [hv]; rfl, toNat_hi8_lo8_setWidth _, toNat_hi8_lo8_setWidth _⟩,
    answers_of_operands (o := .rsStat) rfl rfl, refusesOtherLengths_of_format .rsStat fun _ => rfl⟩

/-! ### RS.ENCODE and RS.CHECK with a message they accept -/

/-- What RS.ENCODE answers, from the message polynomial and the remainder (R136). -/
def encodeAnswer (M r : List Byte) : Response := .sequence (psub M r)

/-- What RS.CHECK answers, from the remainder (R137). -/
def checkAnswer (_M r : List Byte) : Response := .value (boolByte (r == zeroPoly))

theorem exec_rsEncode_eq (m : List Byte) (s : State) : exec (.rsEncode m) s = withRemainder m s encodeAnswer := rfl

theorem exec_rsCheck_eq (m : List Byte) (s : State) : exec (.rsCheck m) s = withRemainder m s checkAnswer := rfl

/-- The response is made from the remainder of the message polynomial. -/
theorem withRemainder_of_pdivrem {m q r : List Byte} {s : State} (answer : List Byte → List Byte → Response)
    (hs : s.Inv) (hm : s.regs.accepts m) (hqr : pdivrem (s.regs.message m) s.regs.generator = some (q, r)) :
    withRemainder m s answer = respond (answer (s.regs.message m) r) s := by
  obtain ⟨q', r', hqr', he⟩ := withRemainder_eq m s answer hs hm
  obtain ⟨rfl, rfl⟩ : q = q' ∧ r = r' := by simpa [hqr] using hqr'
  exact he

/-! ### A response is a function of the frame and the registers -/

/-- In every state with the registers `R` the command sends one and the same response and leaves the same registers
(R144). -/
def AnswersFromRegs (R : Regs) (run : State → Host.Outcome State Fault Refusal) : Prop :=
  ∃ (r : Frame) (regs : Regs), ∀ s, s.regs = R →
    run s = .next { regs := regs, inputs := s.inputs, responses := s.responses ++ [r] }

theorem AnswersFromRegs.of_respond {R : Regs} {run : State → Host.Outcome State Fault Refusal} {r : Response}
    (h : ∀ s, s.regs = R → run s = respond r s) : AnswersFromRegs R run :=
  ⟨r.bytes, R, fun s hs => by rw [h s hs, ← hs]; rfl⟩

theorem AnswersFromRegs.ite {R : Regs} {run run' : State → Host.Outcome State Fault Refusal} (c : Prop) [Decidable c]
    (h : AnswersFromRegs R run) (h' : AnswersFromRegs R run') :
    AnswersFromRegs R fun s => if c then run s else run' s := by
  split
  · exact h
  · exact h'

theorem raise_answersFromRegs (R : Regs) (st : Status) : AnswersFromRegs R (raise st) :=
  .of_respond (r := .status st) fun _ _ => rfl

theorem execRsConfig_answersFromRegs (R : Regs) (n k : Half) (g : Byte) : AnswersFromRegs R (execRsConfig n k g) := by
  have install : AnswersFromRegs R fun s =>
      respond (.status .ok) { s with regs := s.regs.install n k g (genpoly n.toNat k.toNat g) } :=
    ⟨[0x00#8], R.install n k g (genpoly n.toNat k.toNat g), fun s hs => by rw [← hs]; rfl⟩
  exact .ite _ (raise_answersFromRegs R _) (.ite _ (raise_answersFromRegs R _)
    (.ite _ (raise_answersFromRegs R _) (.ite _ (raise_answersFromRegs R _) install)))

theorem withRemainder_answersFromRegs {R : Regs} (hR : R.Inv) (m : List Byte)
    (answer : List Byte → List Byte → Response) : AnswersFromRegs R fun s => withRemainder m s answer := by
  cases hv : R.cfgValid with
  | false =>
    exact .of_respond (r := .status .notConfigured) fun s hs => withRemainder_not_configured m s answer (hs ▸ hv)
  | true =>
    by_cases hne : m = []
    · subst hne
      exact .of_respond (r := .status .invalidMessage) fun s hs => withRemainder_empty s answer (hs ▸ hv)
    by_cases hl : m.length + R.cfgK.toNat ≤ 65535
    · obtain ⟨q, r, hqr, -⟩ := pdivrem_spec (R.message m) _ (R.generator_ne_zeroPoly hR hv)
      refine .of_respond (r := answer (R.message m) r) fun s hs => ?_
      subst hs
      exact withRemainder_of_pdivrem answer hR ⟨hv, hne, hl⟩ hqr
    · refine .of_respond (r := .status .range) fun s hs => ?_
      exact withRemainder_too_long m s answer (hs ▸ hv) hne (hs ▸ Nat.not_le.mp hl)

theorem execRsGenrd_answersFromRegs {R : Regs} (hR : R.Inv) : AnswersFromRegs R execRsGenrd := by
  cases hv : R.cfgValid with
  | false =>
    exact .of_respond (r := .status .notConfigured) fun s hs => exec_rsGenrd_of_not_configured (hs ▸ hv)
  | true =>
    refine .of_respond (r := .sequence R.generator) fun s hs => ?_
    subst hs
    exact exec_rsGenrd_of_valid hR hv

/-- The GF, TBL and POLY commands answer alike in every state; of the RS commands each reads registers only. -/
theorem exec_answersFromRegs {R : Regs} (hR : R.Inv) (i : Instr) : AnswersFromRegs R (exec i) := by
  by_cases hi : i.opcode.byte.toNat < 0x30
  · obtain ⟨r, hr⟩ := exists_answer_of_opcode_lt hi
    exact ⟨r, R, fun s hs => by rw [hr s, ← hs]; rfl⟩
  cases i with
  | rsConfig n k g => exact execRsConfig_answersFromRegs R n k g
  | rsEncode m => exact withRemainder_answersFromRegs hR m encodeAnswer
  | rsCheck m => exact withRemainder_answersFromRegs hR m checkAnswer
  | rsGenrd => exact execRsGenrd_answersFromRegs hR
  | rsStat =>
    exact .of_respond (r := .config R.cfgValid (R.cfgN.setWidth 16) (R.cfgK.setWidth 16) R.cfgG)
      fun s hs => by rw [← hs]; rfl
  | _ => exact absurd (by simp [Instr.opcode, Opcode.byte]) hi

theorem runFrame_answersFromRegs {R : Regs} (hR : R.Inv) (f : Frame) : AnswersFromRegs R (runFrame f) := by
  cases hd : decode f with
  | ok i =>
    obtain ⟨r, regs, h⟩ := exec_answersFromRegs hR i
    exact ⟨r, regs, fun s hs => (runFrame_of_decode hd s).trans (h s hs)⟩
  | error e => exact .of_respond (r := .status .illegalCommand) fun s _ => runFrame_of_error hd s

/-- Settles O21: both states have the registers of which the response is a function. -/
theorem responseDependsOnFrameAndRegisters : Obligations.ResponseDependsOnFrameAndRegisters := by
  unfold Obligations.ResponseDependsOnFrameAndRegisters
  intro s₁ s₂ f hs hr
  obtain ⟨r, regs, h⟩ := runFrame_answersFromRegs hs f
  exact ⟨r, regs, h s₁ rfl, h s₂ hr.symm⟩

end Sys2Proof.Machine
end

section
/-! PROOFS. The generator polynomial (43_reed_solomon.md R133, R134): its degree, its roots, its last coefficient, that
its factors may be taken in any order, and what the generator elements 0x00, 0x01 and those of small order give. -/

namespace Sys2Proof.Machine

/-- The polynomial x + a at a point. -/
theorem peval_linear (a x : Byte) : peval [0x01#8, a] x = gfAdd x a := by
  rw [peval_cons, peval_cons, peval_nil, gfAdd_zero, List.length_nil, gfExp_zero, gfMul_one, List.length_singleton,
    gfExp_one, one_gfMul]

/-- One more root, one more factor of the value at a point. -/
theorem peval_genpoly_add_succ (k m : Nat) (g x : Byte) :
    peval (genpoly (k + (m + 1)) k g) x = gfMul (peval (genpoly (k + m) k g) x) (gfAdd x (gfExp g (m + 1))) := by
  rw [genpoly_add_succ, peval_pmul, peval_linear]

/-- The powers g^1 up to g^m are roots (R133). -/
theorem peval_genpoly_root (k m : Nat) (g : Byte) {i : Nat} (hi : 1 ≤ i) (him : i ≤ m) :
    peval (genpoly (k + m) k g) (gfExp g i) = 0x00#8 := by
  induction m with
  | zero => omega
  | succ m ih =>
    rw [peval_genpoly_add_succ]
    rcases Nat.le_succ_iff.mp him with h | rfl
    · rw [ih h, zero_gfMul]
    · rw [gfAdd_self, gfMul_zero]

/-- The product g^1 · g^2 · ... · g^m (R133). -/
def powerProduct (g : Byte) (m : Nat) : Byte := (List.range' 1 m).foldl (fun acc i => gfMul acc (gfExp g i)) 0x01#8

theorem powerProduct_succ (g : Byte) (m : Nat) :
    powerProduct g (m + 1) = gfMul (powerProduct g m) (gfExp g (m + 1)) := by
  rw [powerProduct, List.range'_concat, List.foldl_append, Nat.one_mul, Nat.add_comm 1 m]
  rfl

/-- The constant coefficient is the product of the roots, signs being no matter in characteristic 2. -/
theorem peval_genpoly_zero (k m : Nat) (g : Byte) : peval (genpoly (k + m) k g) 0x00#8 = powerProduct g m := by
  induction m with
  | zero =>
    rw [Nat.add_zero, genpoly_self]
    rfl
  | succ m ih => rw [peval_genpoly_add_succ, ih, zero_gfAdd, powerProduct_succ]

theorem powerProduct_ne_zero {g : Byte} (hg : g ≠ 0x00#8) (m : Nat) : powerProduct g m ≠ 0x00#8 := by
  induction m with
  | zero => exact show (0x01#8 : Byte) ≠ 0x00#8 by decide
  | succ m ih =>
    rw [powerProduct_succ]
    exact gfMul_ne_zero ih (gfExp_ne_zero hg _)

/-- The last coefficient is the value at 0x00. -/
theorem getLast?_eq_peval_zero {p : List Byte} (hp : p ≠ []) : p.getLast? = some (peval p 0x00#8) := by
  obtain ⟨init, last, rfl⟩ := p.eq_nil_or_concat'.resolve_left hp
  rw [List.getLast?_concat, peval_concat_zero]

/-- The factors of a product may be taken in any order. -/
theorem foldl_pmul_perm (f : Nat → List Byte) {l l' : List Nat} (h : l.Perm l') (p : List Byte) :
    l.foldl (fun G i => pmul G (f i)) p = l'.foldl (fun G i => pmul G (f i)) p := by
  refine h.foldl_eq' (fun i _ j _ G => ?_) p
  rw [pmul_assoc, pmul_assoc, pmul_comm (f i)]

/-- Settles O46: degree and leading coefficient are those of a product of m monic factors, each factor has its root, and
the last coefficient is the value at 0x00. -/
theorem generatorPolynomialShape : Obligations.GeneratorPolynomialShape := by
  unfold Obligations.GeneratorPolynomialShape
  intro n k g _ hkn _
  obtain ⟨t, ht⟩ := genpoly_head n k g hkn
  obtain ⟨m, rfl⟩ := Nat.exists_eq_add_of_le hkn
  rw [Nat.add_sub_cancel_left]
  refine ⟨?_, by rw [ht, List.head?_cons], ?_, fun i => peval_genpoly_root k m g, fun order h => ?_, ?_⟩
  · rw [length_genpoly _ _ g hkn, Nat.add_sub_cancel_left]
  · intro h
    rw [h, genpoly_self]
  · rw [genpoly, Nat.add_sub_cancel_left, foldl_pmul_perm (fun i => [0x01#8, gfExp g i]) h]
  · rw [getLast?_eq_peval_zero (genpoly_normalised _ _ g).ne_nil, peval_genpoly_zero]
    rfl

/-- With g = 0 every factor is x (R134). -/
theorem genpoly_zero (k m : Nat) : genpoly (k + m) k 0x00#8 = 0x01#8 :: zeros m := by
  induction m with
  | zero => exact genpoly_self k _
  | succ m ih =>
    rw [genpoly_add_succ, zero_gfExp (Nat.succ_pos m), ih, show [0x01#8, 0x00#8] = 0x01#8 :: zeros 1 from rfl,
      pmul_monomial, List.cons_append, ← zeros_add, pnorm_of_head_ne_zero _ (by decide)]

/-- With g = 1 every factor is x + 1 (R134). -/
theorem genpoly_one (k m : Nat) : genpoly (k + m) k 0x01#8 = (fun G => pmul G [0x01#8, 0x01#8])^[m] [0x01#8] := by
  induction m with
  | zero => exact genpoly_self k _
  | succ m ih => rw [genpoly_add_succ, one_gfExp, ih, Function.iterate_succ_apply']

/-- Settles O47: the tests of R132 do not look at g. -/
theorem anyGeneratorElementIsAccepted : Obligations.AnyGeneratorElementIsAccepted := by
  unfold Obligations.AnyGeneratorElementIsAccepted
  refine ⟨fun n k g s hk hkn hn => ⟨_, exec_rsConfig_of_valid hk hkn hn g s, rfl, rfl⟩, genpoly_zero, genpoly_one,
    fun g m i h => ?_⟩
  rw [gfExp_add, h, gfMul_one]

end Sys2Proof.Machine
end

section
/-! PROOFS. Encode and check (43_reed_solomon.md R136, R137, R139, R140, R142, R143): the codeword is a multiple of the
generator polynomial, the verdict says whether the message polynomial is one, and what follows from the two. -/

namespace Sys2Proof.Machine

/-! ### The division law, read off its result -/

/-- A division that is defined gives back its dividend, with a remainder that is zero or shorter than the divisor. -/
theorem pdivrem_law {a d q r : List Byte} (h : pdivrem a d = some (q, r)) :
    padd (pmul q d) r = pnorm a ∧ (r = zeroPoly ∨ r.length < (pnorm d).length) := by
  by_cases hd : pnorm d = zeroPoly
  · simp [pdivrem_of_zero_divisor a hd] at h
  · obtain ⟨q', r', hqr, -, -, hsum, hlt⟩ := pdivrem_spec a d hd
    obtain ⟨rfl, rfl⟩ : q = q' ∧ r = r' := by simpa [h] using hqr
    exact ⟨hsum, hlt⟩

/-- Without its remainder the dividend is the quotient times the divisor. -/
theorem psub_remainder {a d q r : List Byte} (h : pdivrem a d = some (q, r)) : psub a r = pmul q d := by
  rw [psub, ← padd_pnorm_left, ← (pdivrem_law h).1, padd_padd_cancel, pnorm_pmul]

/-! ### Divisibility -/

/-- The polynomial `d` divides the polynomial `p`. -/
def Divides (d p : List Byte) : Prop := ∃ q, pmul q d = pnorm p

theorem divides_pmul (q d : List Byte) : Divides d (pmul q d) := ⟨q, (pnorm_pmul q d).symm⟩

theorem divides_pnorm {d p : List Byte} : Divides d (pnorm p) ↔ Divides d p := by rw [Divides, pnorm_pnorm, Divides]

theorem Divides.pmul_right {d p : List Byte} (h : Divides d p) (c : List Byte) : Divides d (pmul p c) := by
  obtain ⟨q, hq⟩ := h
  refine ⟨pmul c q, ?_⟩
  rw [pmul_assoc, hq, pmul_pnorm_right, pmul_comm, pnorm_pmul]

/-- Division leaves no remainder exactly where the divisor divides. -/
theorem divides_iff_pdivrem {d : List Byte} (hd : pnorm d ≠ zeroPoly) (p : List Byte) :
    Divides d p ↔ ∃ q, pdivrem p d = some (q, zeroPoly) := by
  constructor
  · rintro ⟨q, hq⟩
    exact ⟨pnorm q, by rw [← pdivrem_pnorm, ← hq, pdivrem_pmul q d hd]⟩
  · rintro ⟨q, hq⟩
    exact ⟨q, by rw [← (pdivrem_law hq).1, padd_zeroPoly, pnorm_pmul]⟩

/-- A root of the divisor is a root of every multiple. -/
theorem Divides.peval_eq_zero {d p : List Byte} (h : Divides d p) {x : Byte} (hx : peval d x = 0x00#8) :
    peval p x = 0x00#8 := by
  obtain ⟨q, hq⟩ := h
  rw [← peval_pnorm, ← hq, peval_pmul, hx, gfMul_zero]

/-- A factor that is not zero is cancelled. -/
theorem pmul_right_cancel {a b c : List Byte} (hc : pnorm c ≠ zeroPoly) (h : pmul a c = pmul b c) :
    pnorm a = pnorm b := by
  have hsum : pmul (padd a b) c = zeroPoly := by rw [padd_pmul, h, padd_self]
  by_contra hne
  refine pmul_ne_zeroPoly (fun hz => hne (padd_eq_zeroPoly ?_)) hc hsum
  rwa [pnorm_padd] at hz

/-- A divisor with a nonzero constant coefficient has no factor x, so it divides p where it divides x·p. -/
theorem divides_of_divides_concat_zero {d p : List Byte} (hd : peval d 0x00#8 ≠ 0x00#8)
    (h : Divides d (p ++ [0x00#8])) : Divides d p := by
  have hx : ∀ a, pmul a [0x01#8, 0x00#8] = pnorm (a ++ [0x00#8]) := fun a => pmul_monomial a 1
  obtain ⟨q, hq⟩ := h
  have hq0 : peval q 0x00#8 = 0x00#8 := by
    have hval : gfMul (peval q 0x00#8) (peval d 0x00#8) = 0x00#8 := by
      rw [← peval_pmul, hq, peval_pnorm, peval_concat_zero]
    exact ((gfMul_eq_zero _ _).mp hval).resolve_right hd
  obtain ⟨q', c, hqc⟩ := (pnorm q).eq_nil_or_concat'.resolve_left (pnorm_normalised q).ne_nil
  obtain rfl : c = 0x00#8 := by rwa [← peval_pnorm, hqc, peval_concat_zero] at hq0
  refine ⟨q', ?_⟩
  have hcancel : pmul (pmul q' d) [0x01#8, 0x00#8] = pmul p [0x01#8, 0x00#8] := by
    calc pmul (pmul q' d) [0x01#8, 0x00#8] = pmul (pmul q' [0x01#8, 0x00#8]) d := by
          rw [pmul_assoc, pmul_comm d, ← pmul_assoc]
      _ = pmul q d := by rw [hx, ← hqc, pnorm_pnorm, pmul_pnorm_left]
      _ = pmul p [0x01#8, 0x00#8] := by rw [hq, hx]
  rw [← pnorm_pmul]
  exact pmul_right_cancel (by decide) hcancel

/-- So it divides m exactly where it divides m with zeros behind it (R137). -/
theorem divides_append_zeros_iff {d : List Byte} (hd : peval d 0x00#8 ≠ 0x00#8) (m : List Byte) (k : Nat) :
    Divides d (m ++ zeros k) ↔ Divides d m := by
  constructor
  · intro h
    induction k with
    | zero => rwa [zeros_zero, List.append_nil] at h
    | succ k ih =>
      rw [← zeros_comm, ← List.append_assoc] at h
      exact ih (divides_of_divides_concat_zero hd h)
  · intro h
    rw [← divides_pnorm, ← pmul_monomial]
    exact h.pmul_right _

/-! ### The generator polynomial of a valid configuration -/

/-- The registers' generator polynomial, in the form in which the facts of R133 are stated. -/
theorem Regs.generator_eq_add (r : Regs) (h : r.Inv) (hv : r.cfgValid = true) :
    r.generator = genpoly (r.cfgK.toNat + r.degree) r.cfgK.toNat r.cfgG := by
  rw [r.generator_eq h hv, Regs.degree, Nat.add_sub_cancel' (h.kLeN hv)]

theorem Regs.peval_generator_root (r : Regs) (h : r.Inv) (hv : r.cfgValid = true) (hd : 1 ≤ r.degree) :
    peval r.generator r.cfgG = 0x00#8 := by
  have hroot := peval_genpoly_root r.cfgK.toNat r.degree r.cfgG le_rfl hd
  rwa [← r.generator_eq_add h hv, gfExp_one] at hroot

theorem Regs.peval_generator_zero_ne (r : Regs) (h : r.Inv) (hv : r.cfgValid = true) (hg : r.cfgG ≠ 0x00#8) :
    peval r.generator 0x00#8 ≠ 0x00#8 := by
  rw [r.generator_eq_add h hv, peval_genpoly_zero]
  exact powerProduct_ne_zero hg _

/-- The remainder of a message has at most d bytes, or one (R117, R139). -/
theorem Regs.length_remainder_le (r : Regs) (h : r.Inv) (hv : r.cfgValid = true) {a q rem : List Byte}
    (hqr : pdivrem a r.generator = some (q, rem)) : rem.length ≤ max 1 r.degree := by
  rcases (pdivrem_law hqr).2 with rfl | hlt
  · exact le_max_left _ _
  · rw [r.pnorm_generator h hv, r.length_generator h hv] at hlt
    omega

/-! ### What RS.ENCODE and RS.CHECK answer -/

theorem encodes_of_pdivrem {m q r : List Byte} {s : State} (hs : s.Inv) (hm : s.regs.accepts m)
    (hqr : pdivrem (s.regs.message m) s.regs.generator = some (q, r)) : Encodes s m (psub (s.regs.message m) r) :=
  (exec_rsEncode_eq m s).trans (withRemainder_of_pdivrem encodeAnswer hs hm hqr)

theorem verdict_of_pdivrem {m q r : List Byte} {s : State} (hs : s.Inv) (hm : s.regs.accepts m)
    (hqr : pdivrem (s.regs.message m) s.regs.generator = some (q, r)) : Verdict s m (r == zeroPoly) :=
  (exec_rsCheck_eq m s).trans (withRemainder_of_pdivrem checkAnswer hs hm hqr)

/-- For every message the division by the generator polynomial is defined (R117). -/
theorem Regs.exists_pdivrem (r : Regs) (h : r.Inv) (hv : r.cfgValid = true) (a : List Byte) :
    ∃ q rem, pdivrem a r.generator = some (q, rem) := by
  obtain ⟨q, rem, hqr, -⟩ := pdivrem_spec a r.generator (r.generator_ne_zeroPoly h hv)
  exact ⟨q, rem, hqr⟩

/-- The message polynomial is divisible: the verdict is true. -/
theorem verdict_true_of_divides {m : List Byte} {s : State} (hs : s.Inv) (hm : s.regs.accepts m)
    (h : Divides s.regs.generator (s.regs.message m)) : Verdict s m true := by
  obtain ⟨q, hqr⟩ := (divides_iff_pdivrem (s.regs.generator_ne_zeroPoly hs hm.1) _).mp h
  exact verdict_of_pdivrem hs hm hqr

/-- The message polynomial is not divisible: the verdict is false. -/
theorem verdict_false_of_not_divides {m : List Byte} {s : State} (hs : s.Inv) (hm : s.regs.accepts m)
    (h : ¬ Divides s.regs.generator (s.regs.message m)) : Verdict s m false := by
  obtain ⟨q, r, hqr⟩ := s.regs.exists_pdivrem hs hm.1 (s.regs.message m)
  have hr : r ≠ zeroPoly := by
    rintro rfl
    exact h ((divides_iff_pdivrem (s.regs.generator_ne_zeroPoly hs hm.1) _).mpr ⟨q, hqr⟩)
  exact beq_false_of_ne hr ▸ verdict_of_pdivrem hs hm hqr

/-- The two verdicts are different responses. -/
theorem Verdict.not_false_of_true {m : List Byte} {s : State} (h : Verdict s m true) : ¬ Verdict s m false :=
  fun h' => absurd (answer_injective (h.symm.trans h')) (by decide)

theorem verdict_true_iff {m : List Byte} {s : State} (hs : s.Inv) (hm : s.regs.accepts m) :
    Verdict s m true ↔ Divides s.regs.generator (s.regs.message m) :=
  ⟨fun h => by_contra fun hn => h.not_false_of_true (verdict_false_of_not_divides hs hm hn),
    verdict_true_of_divides hs hm⟩

theorem sequenceFrame_injective {q q' : List Byte} (h : sequenceFrame q = sequenceFrame q') : q = q' := by
  injection h with _ h
  injection h with _ h
  injection h

/-- A codeword is a multiple of the generator polynomial (R136). -/
theorem Encodes.eq_pmul {m C : List Byte} {s : State} (h : Encodes s m C) (hs : s.Inv) (hm : s.regs.accepts m) :
    ∃ q, C = pmul q s.regs.generator := by
  obtain ⟨q, r, hqr⟩ := s.regs.exists_pdivrem hs hm.1 (s.regs.message m)
  have hC : Encodes s m (pmul q s.regs.generator) := psub_remainder hqr ▸ encodes_of_pdivrem hs hm hqr
  exact ⟨q, sequenceFrame_injective (answer_injective (h.symm.trans hC))⟩

/-! ### The frames of RS.ENCODE and RS.CHECK -/

/-- A frame of format RM whose length field does not count its message is refused (R57). -/
theorem answers_rm_of_length_ne {o : Opcode} (ho : o.format = .rm) {hi lo : Byte} {m : List Byte}
    (h : m.length ≠ 256 * hi.toNat + lo.toNat) (s : State) : Answers s (o.byte :: hi :: lo :: m) [0x07#8] := by
  refine answers_of_not_takes (ho ▸ ?_) s
  rintro ⟨hi', lo', m', heq, hm⟩
  cases heq
  exact h hm

/-- A frame of format RM without its length field is refused (R57). -/
theorem answers_rm_of_short {o : Opcode} (ho : o.format = .rm) {rest : Frame} (h : rest.length < 2) (s : State) :
    Answers s (o.byte :: rest) [0x07#8] := by
  refine answers_of_not_takes (ho ▸ ?_) s
  rintro ⟨hi, lo, m, rfl, -⟩
  simp only [List.length_cons] at h
  omega

/-- Settles O50: the three tests, and the division law for a message that passes them. -/
theorem encodeAnswersACodeword : Obligations.EncodeAnswersACodeword := by
  unfold Obligations.EncodeAnswersACodeword
  refine ⟨fun m s hv => withRemainder_not_configured m s encodeAnswer hv,
    fun s hv => withRemainder_empty s encodeAnswer hv,
    fun m s hv hne hl => withRemainder_too_long m s encodeAnswer hv hne hl,
    fun m s hs hm => ?_, fun hi lo m s hl => ?_,
    fun hi lo m s hl => answers_rm_of_length_ne (o := .rsEncode) rfl hl s,
    fun rest s hl => answers_rm_of_short (o := .rsEncode) rfl hl s⟩
  · obtain ⟨q, r, hqr⟩ := s.regs.exists_pdivrem hs hm.1 (s.regs.message m)
    have hC : psub (s.regs.message m) r = pmul q s.regs.generator := psub_remainder hqr
    refine ⟨q, r, hqr, encodes_of_pdivrem hs hm hqr, hC, pnorm q, ?_⟩
    rw [hC, pdivrem_pmul q _ (s.regs.generator_ne_zeroPoly hs hm.1)]
    rfl
  · have ho : operandsOf .rsEncode (hi :: lo :: m) = some (.rsEncode m) := if_pos (hl.trans (toNat_be16 hi lo).symm)
    exact runFrame_of_decode (decode_of_operands ho) s

/-- Settles O51: the three tests, and the verdict on a message that passes them. -/
theorem checkAnswersTheVerdict : Obligations.CheckAnswersTheVerdict := by
  unfold Obligations.CheckAnswersTheVerdict
  refine ⟨fun m s hv => withRemainder_not_configured m s checkAnswer hv,
    fun s hv => withRemainder_empty s checkAnswer hv,
    fun m s hv hne hl => withRemainder_too_long m s checkAnswer hv hne hl,
    fun m s hs hm => ?_, fun hi lo m s hl => ?_,
    fun hi lo m s hl => answers_rm_of_length_ne (o := .rsCheck) rfl hl s,
    fun rest s hl => answers_rm_of_short (o := .rsCheck) rfl hl s⟩
  · obtain ⟨q, r, hqr⟩ := s.regs.exists_pdivrem hs hm.1 (s.regs.message m)
    have he : Verdict s m (r == zeroPoly) := verdict_of_pdivrem hs hm hqr
    refine ⟨q, r, hqr, fun hr => ?_, fun hr => ?_⟩
    · subst hr
      exact he
    · rw [beq_false_of_ne (show r ≠ zeroPoly from hr)] at he
      exact he
  · have ho : operandsOf .rsCheck (hi :: lo :: m) = some (.rsCheck m) := if_pos (hl.trans (toNat_be16 hi lo).symm)
    exact runFrame_of_decode (decode_of_operands ho) s

/-! ### What the verdict means -/

theorem Regs.divides_message_iff (r : Regs) (m : List Byte) :
    Divides r.generator (r.message m) ↔ Divides r.generator (m ++ zeros r.cfgK.toNat) := divides_pnorm

/-- The zero polynomial is a multiple of every polynomial. -/
theorem divides_of_pnorm_eq_zeroPoly (d : List Byte) {p : List Byte} (h : pnorm p = zeroPoly) : Divides d p :=
  ⟨zeroPoly, (zeroPoly_pmul d).trans h.symm⟩

theorem divides_of_one (p : List Byte) : Divides [0x01#8] p := ⟨p, pmul_one p⟩

/-- A power of x divides what ends in as many zeros. -/
theorem divides_of_append_zeros (p : List Byte) (k : Nat) : Divides (0x01#8 :: zeros k) (p ++ zeros k) :=
  ⟨p, pmul_monomial p k⟩

/-- The message polynomial of a message of zero bytes is zero. -/
theorem Regs.message_of_pnorm_eq_zeroPoly (r : Regs) {m : List Byte} (h : pnorm m = zeroPoly) :
    r.message m = zeroPoly := by
  rw [r.message_eq_pmul, ← pmul_pnorm_left, h, zeroPoly_pmul]

/-- So it is divisible, whatever the generator polynomial. -/
theorem Regs.divides_message_of_pnorm_eq_zeroPoly (r : Regs) {m : List Byte} (h : pnorm m = zeroPoly) :
    Divides r.generator (r.message m) :=
  divides_of_pnorm_eq_zeroPoly _ (by rw [r.message_of_pnorm_eq_zeroPoly h, pnorm_zeroPoly])

/-- Settles O52: a factor x^k of the message polynomial is cancelled where the generator polynomial has no root 0x00; in
the other cases the generator polynomial is 1, or a power of x no higher than the padding, or the message is zero. -/
theorem checkMeansDivisibility : Obligations.CheckMeansDivisibility := by
  unfold Obligations.CheckMeansDivisibility
  intro m s hs hm
  have hv := hm.1
  refine ⟨fun hg => ?_, fun hkn => ?_, fun hg hd => ?_, fun hz => ?_⟩
  · rw [verdict_true_iff hs hm, s.regs.divides_message_iff,
      divides_append_zeros_iff (s.regs.peval_generator_zero_ne hs hv hg),
      divides_iff_pdivrem (s.regs.generator_ne_zeroPoly hs hv)]
    rfl
  · refine verdict_true_of_divides hs hm ?_
    rw [s.regs.generator_eq hs hv, hkn, genpoly_self]
    exact divides_of_one _
  · refine verdict_true_of_divides hs hm ((s.regs.divides_message_iff m).mpr ?_)
    have hz : zeros s.regs.cfgK.toNat = zeros (s.regs.cfgK.toNat - s.regs.degree) ++ zeros s.regs.degree := by
      rw [← zeros_add, Nat.sub_add_cancel hd]
    rw [s.regs.generator_eq_add hs hv, hg, genpoly_zero, hz, ← List.append_assoc]
    exact divides_of_append_zeros _ _
  · exact verdict_true_of_divides hs hm
      (s.regs.divides_message_of_pnorm_eq_zeroPoly (pnorm_of_forall_eq_zero hz))

/-! ### The codeword -/

/-- A polynomial keeps all but the low end into which a remainder is added (R139). -/
theorem psub_of_split {c : Byte} {cs kept low r : List Byte} (hc : c ≠ 0x00#8) (h : kept ++ low = c :: cs)
    (hkept : kept ≠ []) (hl : low.length = r.length) : psub (kept ++ low) r = kept ++ addSeq low r := by
  obtain ⟨c', kept', rfl⟩ := List.exists_cons_of_ne_nil hkept
  obtain ⟨rfl, -⟩ := List.cons.inj h
  exact psub_of_shorter hc hl

/-- A list split so that its low end has a given length. -/
theorem exists_split_of_length_le {l : List Byte} {n : Nat} (h : n ≤ l.length) :
    ∃ kept low, l = kept ++ low ∧ low.length = n ∧ kept.length = l.length - n :=
  ⟨l.take (l.length - n), l.drop (l.length - n), (List.take_append_drop _ _).symm,
    by rw [List.length_drop]; omega, by rw [List.length_take]; omega⟩

theorem Regs.cfgK_le (r : Regs) (h : r.Inv) (hv : r.cfgValid = true) : r.cfgK.toNat ≤ 256 :=
  (h.kLeN hv).trans (h.nLe hv)

theorem Regs.length_message (r : Regs) {m : List Byte} (hz : pnorm m ≠ zeroPoly) :
    (r.message m).length = (pnorm m).length + r.cfgK.toNat := by
  rw [Regs.message, pnorm_append_zeros hz, List.length_append, length_zeros]

/-- The codeword of a message that is not zero, where the message polynomial is longer than the remainder. -/
theorem encodes_of_split {m q r kept low : List Byte} {s : State} (hs : s.Inv) (hm : s.regs.accepts m)
    (hz : pnorm m ≠ zeroPoly) (hqr : pdivrem (s.regs.message m) s.regs.generator = some (q, r))
    (hsplit : s.regs.message m = kept ++ low) (hkept : kept ≠ []) (hl : low.length = r.length) :
    Encodes s m (kept ++ addSeq low r) := by
  obtain ⟨c, cs, hcs, hc⟩ := normalised_head (pnorm_normalised m) hz
  have hhead : kept ++ low = c :: (cs ++ zeros s.regs.cfgK.toNat) := by
    rw [← hsplit, Regs.message, pnorm_append_zeros hz, hcs, List.cons_append]
  rw [← psub_of_split hc hhead hkept hl, ← hsplit]
  exact encodes_of_pdivrem hs hm hqr

/-- The remainder is added into the low end of a message polynomial of degree d or more. -/
theorem exists_encodes_split {m : List Byte} {s : State} (hs : s.Inv) (hm : s.regs.accepts m) (hz : pnorm m ≠ zeroPoly)
    (hlong : s.regs.degree < (pnorm m).length + s.regs.cfgK.toNat) :
    ∃ q r kept low, pdivrem (s.regs.message m) s.regs.generator = some (q, r) ∧ r.length ≤ max 1 s.regs.degree ∧
      s.regs.message m = kept ++ low ∧ low.length = r.length ∧ Encodes s m (kept ++ addSeq low r) := by
  obtain ⟨q, r, hqr⟩ := s.regs.exists_pdivrem hs hm.1 (s.regs.message m)
  have hr : r.length ≤ max 1 s.regs.degree := s.regs.length_remainder_le hs hm.1 hqr
  have hM : (s.regs.message m).length = (pnorm m).length + s.regs.cfgK.toNat := s.regs.length_message hz
  have hpos := length_pnorm_pos m
  have hk := hs.kPos hm.1
  have hshorter : r.length < (s.regs.message m).length := by omega
  obtain ⟨kept, low, hsplit, hlow, hlen⟩ := exists_split_of_length_le hshorter.le
  have hkept : kept ≠ [] := List.ne_nil_of_length_pos (by omega)
  exact ⟨q, r, kept, low, hqr, hr, hsplit, hlow, encodes_of_split hs hm hz hqr hsplit hkept hlow⟩

/-- The short-message case: a message polynomial of lower degree than the generator polynomial is its own remainder, and
a message of zero bytes leaves none (R143). -/
theorem encodes_zeroPoly {m : List Byte} {s : State} (hs : s.Inv) (hm : s.regs.accepts m)
    (h : pnorm m = zeroPoly ∨ (pnorm m).length + s.regs.cfgK.toNat ≤ s.regs.degree) : Encodes s m zeroPoly := by
  have hv := hm.1
  have hG := s.regs.generator_ne_zeroPoly hs hv
  by_cases hz : pnorm m = zeroPoly
  · have hM : s.regs.message m = pmul zeroPoly s.regs.generator := by
      rw [s.regs.message_of_pnorm_eq_zeroPoly hz, zeroPoly_pmul]
    have he := encodes_of_pdivrem hs hm (hM ▸ pdivrem_pmul zeroPoly _ hG)
    rwa [hM, zeroPoly_pmul, psub, padd_self] at he
  · have hshort : (pnorm (s.regs.message m)).length < (pnorm s.regs.generator).length := by
      rw [s.regs.pnorm_message, s.regs.length_message hz, s.regs.pnorm_generator hs hv, s.regs.length_generator hs hv]
      exact Nat.lt_succ_of_le (h.resolve_left hz)
    have he := encodes_of_pdivrem hs hm (pdivrem_of_shorter hG hshort)
    rwa [s.regs.pnorm_message, psub, padd_self] at he

/-- Settles O53: the low end that the remainder is added into lies within the k zero bytes where d <= k. -/
theorem codewordKeepsTheMessage : Obligations.CodewordKeepsTheMessage := by
  unfold Obligations.CodewordKeepsTheMessage
  intro m s hs hm hz
  have hmsg : s.regs.message m = pnorm m ++ zeros s.regs.cfgK.toNat := pnorm_append_zeros hz _
  refine ⟨hmsg, fun hd => ?_, fun hd hlong => ?_⟩
  · obtain ⟨q, r, hqr⟩ := s.regs.exists_pdivrem hs hm.1 (s.regs.message m)
    have hr : r.length ≤ s.regs.cfgK.toNat :=
      (s.regs.length_remainder_le hs hm.1 hqr).trans (max_le (hs.kPos hm.1) hd)
    have hsplit : s.regs.message m = (pnorm m ++ zeros (s.regs.cfgK.toNat - r.length)) ++ zeros r.length := by
      rw [hmsg, List.append_assoc, ← zeros_add, Nat.sub_add_cancel hr]
    have hkept : pnorm m ++ zeros (s.regs.cfgK.toNat - r.length) ≠ [] :=
      List.append_ne_nil_of_left_ne_nil (pnorm_normalised m).ne_nil _
    have he := encodes_of_split hs hm hz hqr hsplit hkept (length_zeros _)
    rw [zeros_addSeq r _ rfl, List.append_assoc] at he
    exact ⟨q, r, hqr, hr, he⟩
  · obtain ⟨q, r, kept, low, hqr, hr, hsplit, hlow, he⟩ := exists_encodes_split hs hm hz hlong
    have hk := hs.kPos hm.1
    obtain ⟨q', hC⟩ := he.eq_pmul hs hm
    refine ⟨q, r, kept, low, hqr, by omega, hsplit, hlow, he, pnorm q', ?_⟩
    rw [show kept ++ List.zipWith gfAdd low r = _ from hC]
    exact pdivrem_pmul q' _ (s.regs.generator_ne_zeroPoly hs hm.1)

/-- Leading zero bytes do not change the message polynomial. -/
theorem Regs.message_zeros_append (r : Regs) (j : Nat) (m : List Byte) : r.message (zeros j ++ m) = r.message m := by
  rw [Regs.message, List.append_assoc, pnorm_zeros_append, Regs.message]

/-- Settles O54: the codeword is as long as the message polynomial it is split from, or is zero. -/
theorem codewordLengthIsThePolynomialLength : Obligations.CodewordLengthIsThePolynomialLength := by
  unfold Obligations.CodewordLengthIsThePolynomialLength
  refine ⟨fun m s hs hm => ?_, fun m j s hs hm hm' => ?_⟩
  · by_cases h : pnorm m = zeroPoly ∨ (pnorm m).length + s.regs.cfgK.toNat ≤ s.regs.degree
    · refine ⟨zeroPoly, encodes_zeroPoly hs hm h, fun hz hlong => ?_, fun _ => rfl⟩
      exact absurd hlong (Nat.not_lt.mpr (h.resolve_left hz))
    · obtain ⟨hz, hlong⟩ := not_or.mp h
      obtain ⟨q, r, kept, low, -, -, hsplit, hlow, he⟩ := exists_encodes_split hs hm hz (Nat.not_le.mp hlong)
      refine ⟨_, he, fun _ _ => ?_, fun h' => absurd h' h⟩
      rw [← s.regs.length_message hz, hsplit, List.length_append, List.length_append, length_addSeq, hlow, min_self]
  · obtain ⟨q, r, hqr⟩ := s.regs.exists_pdivrem hs hm.1 (s.regs.message m)
    have he : Verdict s m (r == zeroPoly) := verdict_of_pdivrem hs hm hqr
    have he' : Verdict s (zeros j ++ m) (r == zeroPoly) :=
      verdict_of_pdivrem hs hm' ((s.regs.message_zeros_append j m).symm ▸ hqr)
    exact he'.trans he.symm

/-- Settles O55: the codeword is the zero polynomial, which every polynomial divides. -/
theorem shortMessagesEncodeToZero : Obligations.ShortMessagesEncodeToZero := by
  unfold Obligations.ShortMessagesEncodeToZero
  intro m s hs hm h
  refine ⟨encodes_zeroPoly hs hm (h.symm.imp_left pnorm_of_forall_eq_zero), ?_⟩
  have hk := s.regs.cfgK_le hs hm.1
  have haccepts : s.regs.accepts [0x00#8] := ⟨hm.1, List.cons_ne_nil _ _, by rw [List.length_singleton]; omega⟩
  exact verdict_true_of_divides hs haccepts (s.regs.divides_message_of_pnorm_eq_zeroPoly pnorm_zeroPoly)

/-! ### The check of a codeword -/

/-- Settles O56: the codeword is a multiple of the generator polynomial, and stays one when zeros are put behind it. -/
theorem checkAcceptsEveryCodeword : Obligations.CheckAcceptsEveryCodeword := by
  unfold Obligations.CheckAcceptsEveryCodeword
  intro m C s hs hm hC hl
  obtain ⟨q, rfl⟩ := hC.eq_pmul hs hm
  refine verdict_true_of_divides hs ⟨hm.1, (pmul_normalised q _).ne_nil, hl⟩ ?_
  rw [Regs.message_eq_pmul]
  exact (divides_pmul q s.regs.generator).pmul_right _

theorem gfAdd_left_cancel {a b c : Byte} (h : gfAdd a b = gfAdd a c) : b = c := by
  rw [← gfAdd_self_left a b, h, gfAdd_self_left]

theorem gfMul_right_cancel {a b c : Byte} (hc : c ≠ 0x00#8) (h : gfMul a c = gfMul b c) : a = b := by
  rw [← gfAdd_eq_zero, ← gfAdd_gfMul, gfMul_eq_zero] at h
  exact (gfAdd_eq_zero a b).mp (h.resolve_right hc)

/-- A changed coefficient changes the value at every nonzero point. -/
theorem eq_getD_of_peval_set {p : List Byte} {j : Nat} {v x : Byte} (hx : x ≠ 0x00#8) (hj : j < p.length)
    (h : peval (p.set j v) x = peval p x) : v = p.getD j 0x00#8 := by
  induction p generalizing j with
  | nil => exact absurd hj (Nat.not_lt_zero j)
  | cons c cs ih =>
    cases j with
    | zero =>
      rw [List.set_cons_zero, peval_cons, peval_cons, gfAdd_comm, gfAdd_comm (gfMul c _)] at h
      exact gfMul_right_cancel (gfExp_ne_zero hx _) (gfAdd_left_cancel h)
    | succ j =>
      rw [List.set_cons_succ, peval_cons, peval_cons, List.length_set] at h
      exact ih (Nat.lt_of_succ_lt_succ hj) (gfAdd_left_cancel h)

/-- Settles O57: g is a root of the codeword, and of no sequence that differs from it in one byte. -/
theorem checkDetectsEverySingleByteChange : Obligations.CheckDetectsEverySingleByteChange := by
  unfold Obligations.CheckDetectsEverySingleByteChange
  intro m C s j v hs hm hC hl hg hd hj hne
  have hroot := s.regs.peval_generator_root hs hm.1 hd
  have hCg : peval C s.regs.cfgG = 0x00#8 := by
    obtain ⟨q, rfl⟩ := hC.eq_pmul hs hm
    exact (divides_pmul q _).peval_eq_zero hroot
  have hset : (C.set j v).length = C.length := List.length_set
  have haccepts : s.regs.accepts (C.set j v) :=
    ⟨hm.1, List.ne_nil_of_length_pos (by omega), by omega⟩
  refine verdict_false_of_not_divides hs haccepts fun hdiv => hne (eq_getD_of_peval_set hg hj ?_)
  rw [s.regs.divides_message_iff, divides_append_zeros_iff (s.regs.peval_generator_zero_ne hs hm.1 hg)] at hdiv
  rw [hdiv.peval_eq_zero hroot, hCg]

end Sys2Proof.Machine
end

section
/-! PROOFS. Statuses in place of exceptions (60_exceptions.md): every step completes (R157), a status other than OK is
the whole effect of its command (R152), each command reports only the statuses of its table row (R151), and of several
that apply it reports the first (R154). -/

namespace Sys2Proof.Machine

/-! ### The status of a response -/

theorem Response.head?_bytes (r : Response) : r.bytes.head? = some r.statusOf.code := by
  obtain ⟨rest, h⟩ := r.bytes_eq_cons
  rw [h, List.head?_cons]

/-- The one response of a command carries one of its statuses; if that is not OK, sending it is all the command does. -/
theorem exec_next_status {i : Instr} {s t : State} (h : exec i s = .next t) :
    ∃ r : Response, t.responses = s.responses ++ [r.bytes] ∧ r.statusOf ∈ opcodeStatuses i.opcode ∧
      (r.statusOf ≠ .ok → t = s.answer [r.statusOf.code]) := by
  rcases exec_next h with ⟨r, rfl, hr⟩ | ⟨n, k, g, rfl, -, -, -, rfl⟩
  · exact ⟨r, rfl, hr, fun hne => by rw [Response.bytes_of_status_ne_ok hne]⟩
  · exact ⟨.status .ok, rfl, List.mem_cons_self, fun hne => absurd rfl hne⟩

/-- A frame, well-formed or not, gets one response; if its status is not OK, sending it is all that happens. -/
theorem runFrame_next_status {f : Frame} {s t : State} (h : runFrame f s = .next t) :
    ∃ r : Response, t.responses = s.responses ++ [r.bytes] ∧
      (r.statusOf ≠ .ok → t = s.answer [r.statusOf.code]) := by
  cases hd : decode f with
  | ok i =>
    obtain ⟨r, hresp, -, hne⟩ := exec_next_status ((runFrame_of_decode hd s).symm.trans h)
    exact ⟨r, hresp, hne⟩
  | error e =>
    obtain rfl := Host.Outcome.next.inj ((runFrame_of_error hd s).symm.trans h)
    exact ⟨.status .illegalCommand, rfl, fun _ => rfl⟩

/-! ### The step takes one input -/

theorem step_of_input {s : State} {input : HostInput} {rest : List HostInput} (h : s.inputs = input :: rest) :
    step s = takeInput input (s.withInputs rest) := by rw [step, takeNext, h]

/-! ### The statuses of RS.CONFIG -/

/-- Which operands make RS.CONFIG end with a status other than OK, and with which one (R132). -/
theorem exec_rsConfig_eq_answer_iff {c : Byte} (hc : c ≠ 0x00#8) (n k : Half) (g : Byte) (s : State) :
    exec (.rsConfig n k g) s = .next (s.answer [c]) ↔
      (c = 0x02#8 ∧ n.toNat = 0) ∨ (c = 0x03#8 ∧ n.toNat ≠ 0 ∧ k.toNat = 0) ∨
      (c = 0x04#8 ∧ k.toNat ≠ 0 ∧ 256 < n.toNat) ∨
      (c = 0x08#8 ∧ n.toNat ≠ 0 ∧ n.toNat ≤ 256 ∧ n.toNat < k.toNat) := by
  constructor
  · intro h
    have code_eq {c' : Byte} (he : exec (.rsConfig n k g) s = .next (s.answer [c'])) : c = c' :=
      List.singleton_inj.mp (answer_injective (h.symm.trans he))
    rcases exec_rsConfig_cases n k g s with ⟨hn, he⟩ | ⟨hn, hk, he⟩ | ⟨hk, hn, he⟩ | ⟨hn, hn', hkn, he⟩ | ⟨-, -, -, he⟩
    · exact .inl ⟨code_eq he, hn⟩
    · exact .inr (.inl ⟨code_eq he, hn, hk⟩)
    · exact .inr (.inr (.inl ⟨code_eq he, hk, hn⟩))
    · exact .inr (.inr (.inr ⟨code_eq he, hn, hn', hkn⟩))
    · have hresp := congrArg State.responses (Host.Outcome.next.inj (h.symm.trans he))
      exact absurd (by simpa using hresp) hc
  · obtain ⟨tooFewNumbers, tooFewParity, tooManyNumbers, range, -⟩ := configTestsInOrder
    rintro (⟨rfl, hn⟩ | ⟨rfl, hn, hk⟩ | ⟨rfl, hk, hn⟩ | ⟨rfl, hn, hn', hkn⟩)
    · exact tooFewNumbers n k g s hn
    · exact tooFewParity n k g s hn hk
    · exact tooManyNumbers n k g s hk hn
    · exact range n k g s hn hn' hkn

/-! ### The obligations -/

/-- Settles O13: an idle step and a reset always complete, and a command frame is answered in every state that meets
the invariant. -/
theorem everyStepCompletes : Obligations.EveryStepCompletes := by
  unfold Obligations.EveryStepCompletes
  intro s hs
  rcases hin : s.inputs with _ | ⟨f | _ | f, rest⟩
  case nil => exact ⟨s, step_of_idle hin⟩
  case cons.command =>
    obtain ⟨t, -, ht, -⟩ := runFrame_answersLegally f (s := s.withInputs rest) hs
    exact ⟨t, (step_of_command hin).trans ht⟩
  case cons.reset => exact ⟨_, step_of_input hin⟩
  case cons.commandCutByReset => exact ⟨_, step_of_input hin⟩

/-- Settles O17: the one response has another status than OK, so it is that status alone and the only effect. -/
theorem nonOkStatusChangesNoRegister : Obligations.NonOkStatusChangesNoRegister := by
  unfold Obligations.NonOkStatusChangesNoRegister
  intro s t f rest r hin h hresp hr
  obtain ⟨r', hresp', heffect⟩ := runFrame_next_status ((step_of_command hin).symm.trans h)
  obtain rfl : r = r'.bytes := by simpa using hresp.symm.trans hresp'
  have hne : r'.statusOf ≠ .ok := fun hok => hr (by rw [r'.head?_bytes, hok]; rfl)
  rw [Response.bytes_of_status_ne_ok hne]
  exact ⟨heffect hne, rfl⟩

/-- Settles O18: the step runs the frame, as its command or as a malformed frame. -/
theorem statusesAreThoseOfTheTable : Obligations.StatusesAreThoseOfTheTable := by
  unfold Obligations.StatusesAreThoseOfTheTable
  intro s t f rest hin h
  rw [step_of_command hin] at h
  constructor
  · intro i hd
    obtain ⟨r, hresp, hmem, -⟩ := exec_next_status ((runFrame_of_decode hd _).symm.trans h)
    exact ⟨r.bytes, r.statusOf, hresp, hmem, r.head?_bytes⟩
  · intro hd
    obtain rfl := Host.Outcome.next.inj (h.symm.trans (answers_of_not_decoded hd (s.withInputs rest)))
    rfl

/-- Settles O60: the first test of a command that applies decides its status, and each status of RS.CONFIG is the
answer to exactly its own operands. -/
theorem statusPriority : Obligations.StatusPriority := by
  unfold Obligations.StatusPriority
  refine ⟨fun s f hd => answers_of_not_decoded hd s, fun s m hv => ?_, fun s hv => ?_, fun s n k g => ?_,
    fun s n k g => ?_, fun s n k g => ?_, fun s n k g => ?_, fun s a => rfl⟩
  · exact ⟨withRemainder_not_configured m s encodeAnswer hv, withRemainder_not_configured m s checkAnswer hv,
      exec_rsGenrd_of_not_configured hv⟩
  · exact ⟨withRemainder_empty s encodeAnswer hv, withRemainder_empty s checkAnswer hv⟩
  · simp [exec_rsConfig_eq_answer_iff]
  · simp [exec_rsConfig_eq_answer_iff]
  · simp [exec_rsConfig_eq_answer_iff]
  · simp [exec_rsConfig_eq_answer_iff, Nat.one_le_iff_ne_zero]

end Sys2Proof.Machine
end

section
/-! PROOFS. Reset and hazards (70_reset_and_hazards.md): both forms of the reset input restore the registers, and no
command clears CFG_VALID (R170, R171); frames that are not RS.CONFIG's write no register and so commute (R175). -/

namespace Sys2Proof.Machine

/-! ### Reset -/

/-- No command clears CFG_VALID: each keeps the registers or installs a valid configuration. -/
theorem exec_keeps_cfgValid {i : Instr} {s t : State} (h : exec i s = .next t) (hv : s.regs.cfgValid = true) :
    t.regs.cfgValid = true := by
  rcases exec_next h with ⟨r, rfl, -⟩ | ⟨n, k, g, -, -, -, -, rfl⟩
  · exact hv
  · rfl

/-- Settles O11: the two reset inputs reset, and of the step's four cases only that one clears CFG_VALID. -/
theorem hostResetIsTheOnlyWayBack : Obligations.HostResetIsTheOnlyWayBack := by
  unfold Obligations.HostResetIsTheOnlyWayBack
  refine ⟨fun s rest hin => step_of_input hin, fun s f rest hin => step_of_input hin, fun s t h hv ht => ?_⟩
  have hne : t.regs.cfgValid ≠ true := by simp [ht]
  rcases step_next h with ⟨-, rfl⟩ | ⟨f, rest, i, -, -, he⟩ | ⟨f, rest, e, -, -, rfl⟩ | ⟨rest, hin, -⟩
  case inl => exact absurd hv hne
  case inr.inl => exact absurd (exec_keeps_cfgValid he hv) hne
  case inr.inr.inl => exact absurd hv hne
  case inr.inr.inr => exact ⟨rest, hin⟩

/-! ### Frames that only read -/

/-- A frame whose opcode is not RS.CONFIG's writes no register. -/
theorem step_present_regs {s t : State} {f : Frame} (hf : f.head? ≠ some 0x30#8)
    (h : step (s.present f) = .next t) : t.regs = s.regs := by
  by_contra hr
  rcases onlyConfigAndResetWriteRegisters (s.present f) t h hr with
    ⟨rest, hin | ⟨f', hin⟩, -⟩ | ⟨n, k, g, rest, hin, -⟩
  · simp at hin
  · simp at hin
  · obtain ⟨rfl, -⟩ : f = encode (.rsConfig n k g) ∧ s.inputs = rest := by simpa using hin
    exact hf rfl

/-- A frame whose opcode is not RS.CONFIG's gets one response in all states with the same registers, and only that. -/
theorem exists_answers_of_regs_eq {s : State} {f : Frame} (hs : s.Inv) (hf : f.head? ≠ some 0x30#8) :
    ∃ r, ∀ s' : State, s'.regs = s.regs → Answers s' f r := by
  obtain ⟨r, regs, h⟩ := runFrame_answersFromRegs hs f
  obtain rfl : regs = s.regs := step_present_regs hf (h s rfl)
  refine ⟨r, fun s' hs' => ?_⟩
  rw [answers_iff, h s' hs', ← hs']
  rfl

/-- Settles O22: an answer keeps the registers, so each frame gets the same response before and after the other. -/
theorem readingCommandsCommute : Obligations.ReadingCommandsCommute := by
  unfold Obligations.ReadingCommandsCommute
  intro s f₁ f₂ hs hf₁ hf₂
  obtain ⟨r₁, h₁⟩ := exists_answers_of_regs_eq hs hf₁
  obtain ⟨r₂, h₂⟩ := exists_answers_of_regs_eq hs hf₂
  exact ⟨r₁, r₂, h₁ s rfl, h₂ s rfl, h₂ (s.answer r₁) rfl, h₁ (s.answer r₂) rfl⟩

end Sys2Proof.Machine
end
